-- ==== Sys2Proof/Word.lean ====
section
/-!
DEFINITION. The words of the block (spec 00 R11, R12): bytes, 32-bit registers, 16-bit aperture offsets,
the 64-bit words of SHA-512 and the 128-bit answer of the entropy port.
-/

namespace Sys2Proof

/-- A byte is an 8-bit word (R12). -/
abbrev Byte := BitVec 8

/-- The contents of a register and the data of a host access (R11, R32). -/
abbrev Word := BitVec 32

/-- A host byte offset in the 64 KiB aperture (R71). -/
abbrev Offset := BitVec 16

/-- A word of SHA-512 (R210). -/
abbrev Word64 := BitVec 64

/-- The port signal `ent_data[127:0]` (R57). -/
abbrev EntropyWord := BitVec 128

/-- A byte string (R12): byte `i` is the list's element `i`. -/
abbrev Bytes := List Byte

end Sys2Proof
end

