-- ==== Sys2Proof/Syntax.lean ====
section
/-!
DEFINITION. The commands of the block: one constructor for each row of spec/opcode_table.json (spec 30 R101).
-/

namespace Sys2Proof

/-- The four commands (R101). A command word has no operand field (R103): the operands are in the snapshot. -/
inductive Instr where
  | nop      -- NOP, R132
  | encrypt  -- ENCRYPT, R133
  | decrypt  -- DECRYPT, R134
  | zeroize  -- ZEROIZE, R135
deriving DecidableEq, Repr

end Sys2Proof
end

