-- ==== Sys2Proof/Decode.lean ====
section
/-!
DEFINITION. The decoder of command words (spec 30 R100 to R102, R104) and after it the encoder (R101).
-/

namespace Sys2Proof

/-- Why a word is ILLEGAL (R102, R104, R254). Both reasons have the same effect (R136); that one is named is a DESIGN
CHOICE (log 22). -/
inductive IllegalReason where
  | reservedBits    -- bits [31:4] are not 0
  | reservedOpcode  -- OPC is 0x4 to 0xF
deriving DecidableEq, Repr

/-- What `decode` answers: a command, or ILLEGAL with the reason. -/
inductive Decoded where
  | command (i : Instr)
  | illegal (why : IllegalReason)
deriving DecidableEq, Repr

/-- The field OPC, bits [3:0] (R100). -/
def opcField (v : Word) : BitVec 4 := v.extractLsb' 0 4

/-- The field RSVD, bits [31:4] (R100). -/
def rsvdField (v : Word) : BitVec 28 := v.extractLsb' 4 28

/-- Decoding, a total function of the 32-bit word (R102). -/
def decode (v : Word) : Decoded :=
  if rsvdField v ≠ 0 then .illegal .reservedBits
  else if opcField v = 0x0 then .command .nop
  else if opcField v = 0x1 then .command .encrypt
  else if opcField v = 0x2 then .command .decrypt
  else if opcField v = 0x3 then .command .zeroize
  else .illegal .reservedOpcode

/-- The instruction the decoder reads from a table word: a command is one 32-bit value written to CMD (R100, R105),
so the row's bits are the word and every bit above them is 0. -/
def decodeTableWord (_nbits w : Nat) : Option Instr :=
  if w < 2 ^ 32 then
    match decode (BitVec.ofNat 32 w) with
    | .command i => some i
    | .illegal _ => none
  else none

/-- The word of a command (R101, the `enc` of R106). -/
def encode (i : Instr) : Word :=
  match i with
  | .nop => 0x00000000
  | .encrypt => 0x00000001
  | .decrypt => 0x00000002
  | .zeroize => 0x00000003

end Sys2Proof
end

