-- ==== Sys2Proof/Machine/Bytes.lean ====
section
/-!
DEFINITION. Byte strings (spec 00 R12, R13): slices, byte orders, bytewise exclusive-or, cutting into blocks.
-/

namespace Sys2Proof.Machine

/-- `zeros(n)` (R12). -/
def zeros (n : Nat) : Bytes := List.replicate n 0

/-- `rep(b, n)` (R12). -/
def rep (b : Byte) (n : Nat) : Bytes := List.replicate n b

/-- `B[i..j)`, half-open (R12). -/
def slice (b : Bytes) (i j : Nat) : Bytes := (b.drop i).take (j - i)

/-- `X xor Y`, bytewise, on byte strings of equal length (R12). -/
def xorBytes (x y : Bytes) : Bytes := List.zipWith (· ^^^ ·) x y

/-- Byte `j` of a word in little-endian lanes: bits `[8j+7:8j]` (R80). -/
def lane {w : Nat} (v : BitVec w) (j : Nat) : Byte := v.extractLsb' (8 * j) 8

/-- The first `n` byte lanes of a word, lane 0 first (R80). -/
def lanes {w : Nat} (n : Nat) (v : BitVec w) : Bytes := (List.range n).map (lane v)

/-- `le32(B4)`: the word whose bits `[8j+7:8j]` are byte `j` (R13). -/
def le32 (b0 b1 b2 b3 : Byte) : Word := b3 ++ b2 ++ b1 ++ b0

/-- The `n`-byte big-endian encoding of `v mod 2^(8n)`, byte 0 most significant (R13). -/
def beBytes (n v : Nat) : Bytes :=
  (List.range n).map fun i => BitVec.ofNat 8 (v >>> (8 * (n - 1 - i)))

/-- `be64(n)` (R13). -/
def be64 (v : Nat) : Bytes := beBytes 8 v

/-- `be128(n)` (R13). -/
def be128 (v : Nat) : Bytes := beBytes 16 v

/-- The big-endian value of a byte string (R213). -/
def beValue (b : Bytes) : Nat := b.foldl (fun acc x => acc * 256 + x.toNat) 0

/-- The first `count` blocks of `size` bytes of a byte string, in order (R187, R213). -/
def blocksOf (size : Nat) : (count : Nat) → Bytes → List Bytes
  | 0, _ => []
  | k + 1, b => b.take size :: blocksOf size k (b.drop size)

end Sys2Proof.Machine
end

