-- ==== Sys2Proof/Config.lean ====
section
/-!
DEFINITION. What an implementation fixes: the constants and parameters of spec 00 R8 to R10 and the two values the
spec leaves open (93 U2, U8), as constants without a body.
-/

namespace Sys2Proof.Config

/-- The length of the composite key (R8), the only legal KEYLEN (R129). -/
def keyBytes : Nat := 64

/-- The length of `macKey` and of `encKey` (R8, R130). -/
def halfKeyBytes : Nat := 32

/-- The length of the IV (R8). -/
def ivBytes : Nat := 16

/-- The length of the truncated tag (R8, R221). -/
def tagBytes : Nat := 32

/-- One AES block (R8, R9). -/
def aesBlockBytes : Nat := 16

/-- One SHA-512 message block and the HMAC key block (R9). -/
def shaBlockBytes : Nat := 128

/-- The constant of the ID register (R33). -/
def idValue : Word := 0xAE5CB512

/-- The constant of the VERSION register: MAJOR 1, MINOR 0 (R34). -/
def versionValue : Word := 0x00010000

/-- The aperture offset of `BUF[0]` (R56, R72). -/
def windowBase : Nat := 0x8000

/-- The default of the parameter BUF_SIZE (R10); `State.reset` has it, every other state may have another. -/
def bufSizeDefault : Nat := 16384

/-- The bounds of BUF_SIZE (R10). -/
def bufSizeMin : Nat := 256
def bufSizeMax : Nat := 32768

/-- APERTURE_BASE, the system address of aperture offset 0 (R10, R71): OPEN, the platform's (log 13). -/
opaque apertureBase : Nat

/-- The values a reset leaves in the bytes an aborted command could have written (R282, 93 U2): "any value (a draw
of the model)". Draw `n` is a free value; nothing constrains it (log 6). -/
opaque freeByte : Nat → Byte

end Sys2Proof.Config
end

