-- ==== Sys2Proof/Machine/State.lean ====
section
/-!
DEFINITION. The state of the block (spec 10) as plain data, the steps its agents can take (00 R17), and the state
right after reset (10 R61).
-/

namespace Sys2Proof.Machine

/-- The result codes that are ever produced (60 R256). Codes 6 to 15 are reserved and never produced (93 U15):
no value here stands for one (log 17). -/
inductive ResultCode where
  | none               -- 0 NONE
  | ok                 -- 1 OK
  | invalidCryptoKey   -- 2 INVALID_CRYPTO_KEY
  | invalidCiphertext  -- 3 INVALID_CIPHERTEXT
  | illegalCommand     -- 4 ILLEGAL_COMMAND
  | badRegion          -- 5 BAD_REGION
deriving DecidableEq, Repr

/-- The failure kinds a `raise` names (00 R15, 60 R256). -/
inductive FailureKind where
  | illegalCommand
  | invalidCryptoKey
  | badRegion
  | invalidCiphertext
deriving DecidableEq, Repr

/-- The size of a host access: 1, 2 or 4 bytes (20 R70). -/
inductive AccessSize where
  | one
  | two
  | four
deriving DecidableEq, Repr

/-- One step of one agent (00 R17). The order in which they come is the schedule (20 R84). -/
inductive Input where
  | hostRead (off : Offset) (size : AccessSize)                  -- the host reads (20 R70)
  | hostWrite (off : Offset) (size : AccessSize) (wdata : Word)  -- the host writes (20 R70)
  | sequencer                                                    -- the sequencer has a turn (40 R123)
  | entropy (data : EntropyWord)                                 -- `ent_valid = 1` with `ent_data` (40 R131, 70 R284)
  | assertReset                                                  -- `rst_n` is asserted, a warm reset (70 R280)
  | releaseReset                                                 -- `rst_n` is released (70 R280)
  | powerOn (bufInit : Bytes)                                    -- power-on reset with BUF_INIT (70 R280, 10 R62)
deriving DecidableEq, Repr

/-- The operand registers (10 R45 to R52), which acceptance copies and ZEROIZE clears. -/
structure OperandRegs where
  keylen : Word            -- KEYLEN (R45)
  aadoff : Word            -- AADOFF (R46)
  aadlen : Word            -- AADLEN (R47)
  inoff  : Word            -- INOFF (R48)
  inlen  : Word            -- INLEN (R49)
  outoff : Word            -- OUTOFF (R50)
  key    : Vector Word 16  -- KEY0 to KEY15 (R51)
  iv     : Vector Word 4   -- IV0 to IV3 (R52)
deriving DecidableEq, Repr

/-- Every operand register 0: their reset values (10 R61) and what ZEROIZE leaves (40 R135). -/
def OperandRegs.cleared : OperandRegs where
  keylen := 0
  aadoff := 0
  aadlen := 0
  inoff  := 0
  inlen  := 0
  outoff := 0
  key    := Vector.replicate 16 0
  iv     := Vector.replicate 4 0

/-- The command snapshot `S` (10 R58). -/
structure Snapshot where
  cmd   : Word         -- S.CMD, the 32-bit value written to CMD
  ivsrc : Bool         -- S.IVSRC
  ops   : OperandRegs  -- the operand registers at acceptance
deriving DecidableEq, Repr

/-- The sequencer phase (10 R31). The snapshot is there only while BUSY = 1; R58 leaves its value undefined, and
unread, while BUSY = 0 (log 7). -/
inductive Phase where
  | idle
  | busy (snap : Snapshot)
deriving DecidableEq, Repr

/-- The data buffer by its bytes (10 R56): offsets strictly rising, no entry equal to what an unlisted offset reads
as (`Memory.blank`). -/
abbrev Memory := List Host.Cell

/-- The state of the block. -/
structure State where
  bufSize : Nat                 -- BUF_SIZE, what PARAM reads (R35); no step changes it (log 3)
  ivsrc   : Bool                -- CTRL.IVSRC (R36)
  ie      : Bool                -- CTRL.IE (R36)
  phase   : Phase               -- STATUS.BUSY and the snapshot (R31, R38, R58)
  done    : Bool                -- STATUS.DONE (R39)
  accerr  : Bool                -- STATUS.ACCERR (R40)
  result  : ResultCode          -- RESULT.CODE (R42)
  outlen  : Word                -- OUTLEN (R43)
  ops     : OperandRegs         -- KEYLEN to OUTOFF, KEY0 to KEY15, IV0 to IV3 (R45 to R52)
  buf     : Memory              -- BUF (R56)
  entReq  : Bool                -- ENTREQ, the level of `ent_req` (R60)
  entData : Option EntropyWord  -- `ent_valid` with `ent_data` during a step, none between steps (R284, log 10)
  rstHeld : Bool                -- `rst_n` is held asserted (70 R280, log 12)
  rdata   : Option Word         -- what the host port answered last: `rdata` for a read (20 R70, R78, log 11)
  inputs  : List Input          -- the model's own: the steps still to come, the next one first (log 1)
  draws   : Nat                 -- the model's own: how many free bytes have been taken (log 6)
deriving DecidableEq, Repr

/-- The block never faults: "The block raises no synchronous exception, takes no trap and never stops the host"
(60 R250). So there is no reason to name; a proof that a step ends in a fault is a contradiction. -/
inductive Fault where
deriving DecidableEq, Repr

/-- The reasons to refuse an instruction. -/
inductive Refusal where
  /-- Raised by an arm of `exec` whose instruction has no meaning yet; no arm of this model raises it. Safe: the
  machine stops where the hardware goes on. -/
  | notModelled (mnemonic : String)
deriving DecidableEq, Repr

/-- The block right after reset (10 R61, R62; 70 R283), released and with BUF_SIZE at its default. The values the
spec does not give are DESIGN CHOICES: the bytes of the buffer (log 4), `bufSize` (log 3), `rdata` (log 11),
`rstHeld` (log 12), `inputs` (log 1) and `draws` (log 6). -/
def State.reset : State where
  bufSize := Config.bufSizeDefault
  ivsrc   := false
  ie      := false
  phase   := .idle
  done    := false
  accerr  := false
  result  := .none
  outlen  := 0
  ops     := OperandRegs.cleared
  buf     := []
  entReq  := false
  entData := none
  rstHeld := false
  rdata   := none
  inputs  := []
  draws   := 0

end Sys2Proof.Machine
end

