-- ==== Sys2Proof/Machine/Ops.lean ====
section
/-!
DEFINITION. The shared operations: the data buffer (spec 00 R14, 10 R56), the ends of a completion (40 R124),
acceptance (40 R121), the entropy request (40 R131), regions (40 R126).
-/

namespace Sys2Proof.Machine

/-! ## The data buffer -/

/-- What an unlisted offset of the buffer reads as: DESIGN CHOICE 0x00 (log 4). -/
def Memory.blank : Byte := 0x00

/-- The canonical form, from a lower bound of the first offset on: offsets strictly rising, no blank entry. -/
def Memory.wfFrom : (least : Nat) → Memory → Bool
  | _, [] => true
  | least, (a, b) :: rest => decide (least ≤ a) && (b != Memory.blank) && Memory.wfFrom (a + 1) rest

/-- The canonical form holds. -/
def Memory.wf (m : Memory) : Bool := Memory.wfFrom 0 m

/-- Every listed offset is below `n`. -/
def Memory.below (n : Nat) (m : Memory) : Bool := m.all fun c => decide (c.1 < n)

/-- `BUF[a]`. -/
def Memory.read : Memory → Nat → Byte
  | [], _ => Memory.blank
  | (k, b) :: rest, a => if k = a then b else Memory.read rest a

/-- The entry of an offset taken away, so that it reads as blank. -/
def Memory.erase (m : Memory) (a : Nat) : Memory := m.filter fun c => c.1 != a

/-- An entry put before the first entry of a higher offset. -/
def Memory.insert : Memory → Nat → Byte → Memory
  | [], a, b => [(a, b)]
  | (k, c) :: rest, a, b =>
    if a < k then (a, b) :: (k, c) :: rest else (k, c) :: Memory.insert rest a b

/-- `BUF[a] <- b`, keeping the canonical form: a blank byte is not listed. -/
def Memory.write (m : Memory) (a : Nat) (b : Byte) : Memory :=
  if b = Memory.blank then Memory.erase m a else Memory.insert (Memory.erase m a) a b

/-- `MemRead(off, n)`: the bytes `BUF[off..off+n)` (R14). -/
def Memory.readBytes (m : Memory) (off n : Nat) : Bytes :=
  (List.range n).map fun i => Memory.read m (off + i)

/-- `MemWrite(off, n, v)` with `n = len(v)` (R14). -/
def Memory.writeBytes : Memory → (off : Nat) → Bytes → Memory
  | m, _, [] => m
  | m, off, b :: bs => Memory.writeBytes (Memory.write m off b) (off + 1) bs

/-- `MemWrite(off, n, zeros(n))`, which takes the entries away (`Memory.zeroFill_eq_writeBytes`). -/
def Memory.zeroFill (m : Memory) (off n : Nat) : Memory :=
  m.filter fun c => !(decide (off ≤ c.1) && decide (c.1 < off + n))

/-! ## Regions (R126) -/

/-- `fits(off, len)`, on natural numbers (R126). -/
def fits (bufSize off len : Nat) : Bool := decide (off + len ≤ bufSize)

/-- `disjoint(o1, l1, o2, l2)` (R126). -/
def disjoint (o1 l1 o2 l2 : Nat) : Bool :=
  decide (l1 = 0) || decide (l2 = 0) || decide (o1 + l1 ≤ o2) || decide (o2 + l2 ≤ o1)

/-- `n_enc`, the length of the blob of an ENCRYPT (R127). -/
def encLength (s : Snapshot) : Nat := 64 + 16 * (s.ops.inlen.toNat / 16)

/-- `R`, the reserved output size of a DECRYPT (R128). -/
def decReserved (s : Snapshot) : Nat :=
  if s.ops.inlen.toNat ≥ 48 then s.ops.inlen.toNat - 48 else 0

/-- What R127 and R128 share: the AAD, the input and an output of `n` bytes fit, and the output is disjoint from
both. -/
def regionsOk (bufSize n : Nat) (s : Snapshot) : Bool :=
  fits bufSize s.ops.aadoff.toNat s.ops.aadlen.toNat &&
  fits bufSize s.ops.inoff.toNat s.ops.inlen.toNat &&
  fits bufSize s.ops.outoff.toNat n &&
  disjoint s.ops.outoff.toNat n s.ops.inoff.toNat s.ops.inlen.toNat &&
  disjoint s.ops.outoff.toNat n s.ops.aadoff.toNat s.ops.aadlen.toNat

/-- `enc_regions_ok(S)` (R127). -/
def encRegionsOk (bufSize : Nat) (s : Snapshot) : Bool := regionsOk bufSize (encLength s) s

/-- `dec_regions_ok(S)` (R128). -/
def decRegionsOk (bufSize : Nat) (s : Snapshot) : Bool := regionsOk bufSize (decReserved s) s

/-- The key check passes: `S.KEYLEN = 64` (R129). -/
def keyLengthOk (s : Snapshot) : Bool := s.ops.keylen.toNat == Config.keyBytes

/-! ## Acceptance and completion -/

/-- `accept(v)` (R121). ACCERR stays as it is. -/
def accept (v : Word) (s : State) : State :=
  { s with
    phase := .busy { cmd := v, ivsrc := s.ivsrc, ops := s.ops }
    done := false
    result := .none
    outlen := 0 }

/-- `finish(code, n)` (R124; log 19). An answer on the entropy port is taken or dropped with it (R284). -/
def finish (code : ResultCode) (n : Nat) (s : State) : State :=
  { s with
    result := code
    outlen := BitVec.ofNat 32 n
    entReq := false
    entData := none
    phase := .idle
    done := true }

/-- The result code of a failure kind (R124, R256). -/
def FailureKind.code : FailureKind → ResultCode
  | .illegalCommand => .illegalCommand
  | .invalidCryptoKey => .invalidCryptoKey
  | .badRegion => .badRegion
  | .invalidCiphertext => .invalidCiphertext

/-- `raise <Kind>`: the failure epilogue of R124, the block's only form of an exception. Nothing is saved but RESULT
and OUTLEN and control goes nowhere (R267), so there is no return from it. -/
def raiseFailure (kind : FailureKind) (snap : Snapshot) (s : State) : State :=
  match kind with
  | .invalidCiphertext =>
    finish .invalidCiphertext 0
      { s with buf := Memory.zeroFill s.buf snap.ops.outoff.toNat (decReserved snap) }
  | .illegalCommand => finish (FailureKind.code .illegalCommand) 0 s
  | .invalidCryptoKey => finish (FailureKind.code .invalidCryptoKey) 0 s
  | .badRegion => finish (FailureKind.code .badRegion) 0 s

/-- `ENTREQ <- 1` and wait (R131). Nothing is kept from an answer that came before the request (R284). -/
def requestEntropy (s : State) : State := { s with entReq := true, entData := none }

/-- A completion of the command in flight. While IDLE there is none and nothing happens (R31, R123; log 8). -/
def complete (s : State) (run : Snapshot → State → State) : Host.Outcome State Fault Refusal :=
  match s.phase with
  | .idle => .next s
  | .busy snap => .next (run snap s)

end Sys2Proof.Machine
end

