-- ==== Sys2Proof/Machine/Flags.lean ====
section
/-!
DEFINITION. The flags (spec 10 R54) and the words of the control and status registers (R36, R37, R42), and the
interrupt output (60 R266). The block has no arithmetic flags (R54).
-/

namespace Sys2Proof.Machine

/-- STATUS.BUSY, the sequencer phase (R38). -/
def isBusy (s : State) : Bool :=
  match s.phase with
  | .idle => false
  | .busy _ => true

/-- STATUS.IRQPEND and the level of the `irq` output: `STATUS.DONE and CTRL.IE` (R41, R266). -/
def irq (s : State) : Bool := s.done && s.ie

/-- The level of the `ent_req` output (R57, R60). -/
def entReqOut (s : State) : Bool := s.entReq

/-- The word CTRL reads as: IVSRC in bit 0, IE in bit 1, the rest 0 (R36). -/
def ctrlWord (s : State) : Word :=
  (0 : BitVec 30) ++ BitVec.ofBool s.ie ++ BitVec.ofBool s.ivsrc

/-- The word STATUS reads as: BUSY, DONE, ACCERR, IRQPEND in bits 0 to 3, the rest 0 (R37). -/
def statusWord (s : State) : Word :=
  (0 : BitVec 28) ++ BitVec.ofBool (irq s) ++ BitVec.ofBool s.accerr ++ BitVec.ofBool s.done ++
    BitVec.ofBool (isBusy s)

/-- The four bits of RESULT.CODE (R42, R256). -/
def ResultCode.bits : ResultCode → BitVec 4
  | .none => 0
  | .ok => 1
  | .invalidCryptoKey => 2
  | .invalidCiphertext => 3
  | .illegalCommand => 4
  | .badRegion => 5

/-- The word RESULT reads as (R42). -/
def resultWord (s : State) : Word := (0 : BitVec 28) ++ s.result.bits

/-- A write of CTRL: bits [1:0] are stored, the rest ignored (R36). -/
def writeCtrl (v : Word) (s : State) : State :=
  { s with ivsrc := v.getLsbD 0, ie := v.getLsbD 1 }

/-- A write of STATUS: bit 1 clears DONE, bit 2 clears ACCERR, a write never sets a bit (R37). -/
def writeStatus (v : Word) (s : State) : State :=
  { s with
    done := s.done && !v.getLsbD 1
    accerr := s.accerr && !v.getLsbD 2 }

end Sys2Proof.Machine
end

