-- ==== Sys2Proof/Machine/Operands.lean ====
section
/-!
DEFINITION. Operand assembly from the snapshot (spec 30 R103), the key split (40 R130) and the IV source (40 R131).
-/

namespace Sys2Proof.Machine

/-- The bytes of a register file, lane 0 of register 0 first (R51, R52, R103). -/
def fileBytes {n : Nat} (file : Vector Word n) : Bytes := file.toList.flatMap (lanes 4)

/-- `S.K[0..64)`, the composite key (R51, R103). -/
def compositeKey (snap : Snapshot) : Bytes := fileBytes snap.ops.key

/-- `S.IVREG[0..16)` (R52, R103). -/
def ivRegBytes (snap : Snapshot) : Bytes := fileBytes snap.ops.iv

/-- `macKey = K[0..32)` (R130). -/
def macKeyOf (k : Bytes) : Bytes := slice k 0 Config.halfKeyBytes

/-- `encKey = K[32..64)` (R130). -/
def encKeyOf (k : Bytes) : Bytes := slice k Config.halfKeyBytes Config.keyBytes

/-- `A = MemRead(S.AADOFF, S.AADLEN)` (R103). -/
def aadOperand (snap : Snapshot) (s : State) : Bytes :=
  Memory.readBytes s.buf snap.ops.aadoff.toNat snap.ops.aadlen.toNat

/-- `IN = MemRead(S.INOFF, S.INLEN)`, the plaintext or the blob (R103). -/
def inputOperand (snap : Snapshot) (s : State) : Bytes :=
  Memory.readBytes s.buf snap.ops.inoff.toNat snap.ops.inlen.toNat

/-- `obtain_iv(S)` (R131): the IV registers, or the entropy source's answer to an outstanding request
(`IV[j] = ent_data[8j+7:8j]`); `none` while there is no answer. -/
def obtainIv (snap : Snapshot) (s : State) : Option Bytes :=
  if snap.ivsrc then some (ivRegBytes snap)
  else if s.entReq then s.entData.map (lanes Config.ivBytes)
  else none

end Sys2Proof.Machine
end

