-- ==== Sys2Proof/Machine/Bus.lean ====
section
/-!
DEFINITION. The host port: the aperture (spec 20 R70 to R72), the register map (10 R32), the access rules (20 R73 to
R78).
-/

namespace Sys2Proof.Machine

/-- What an aligned offset of the aperture names (10 R32, 20 R72). -/
inductive Target where
  | id | version | param | ctrl | status | result | outlen | cmd
  | keylen | aadoff | aadlen | inoff | inlen | outoff
  | key (i : Fin 16)
  | iv (i : Fin 4)
  | reserved         -- a reserved offset of the register block (R53)
  | buffer (k : Nat) -- the word at `BUF[k..k+4)` (R73)
  | unmapped         -- R74
deriving DecidableEq, Repr

/-- The offset in the aperture of a system address (R71); `none` outside the aperture, which the block does not
decode. -/
def apertureOffset (address : Nat) : Option Offset :=
  if Config.apertureBase ≤ address ∧ address < Config.apertureBase + 0x10000 then
    some (BitVec.ofNat 16 (address - Config.apertureBase))
  else none

/-- The named registers of the register map (R32) by offset. -/
def registerMap : List (Nat × Target) :=
  [ (0x000, .id), (0x004, .version), (0x008, .param), (0x00C, .ctrl),
    (0x010, .status), (0x014, .result), (0x018, .outlen), (0x01C, .cmd),
    (0x020, .keylen), (0x024, .aadoff), (0x028, .aadlen), (0x02C, .inoff),
    (0x030, .inlen), (0x034, .outoff) ]

/-- The register block by offset (R32, R53). -/
def registerAt (o : Nat) : Target :=
  match registerMap.lookup o with
  | some t => t
  | none =>
    if 0x040 ≤ o ∧ o < 0x080 then .key (Fin.ofNat 16 ((o - 0x040) / 4))
    else if 0x080 ≤ o ∧ o < 0x090 then .iv (Fin.ofNat 4 ((o - 0x080) / 4))
    else .reserved

/-- The address map of the aperture (R72), for an aligned offset. -/
def targetOf (bufSize : Nat) (off : Offset) : Target :=
  let o := off.toNat
  if o < 0x100 then registerAt o
  else if Config.windowBase ≤ o ∧ o + 4 ≤ Config.windowBase + bufSize then
    .buffer (o - Config.windowBase)
  else .unmapped

/-- "The only legal host access is size = 4 at an offset with off mod 4 = 0" (R75). -/
def legalAccess (off : Offset) (size : AccessSize) : Bool :=
  decide (size = .four) && decide (off.toNat % 4 = 0)

/-- The busy-locked targets (R32, R78). -/
def busyLocked : Target → Bool
  | .cmd | .keylen | .aadoff | .aadlen | .inoff | .inlen | .outoff => true
  | .key _ | .iv _ | .buffer _ => true
  | .id | .version | .param | .ctrl | .status | .result | .outlen => false
  | .reserved | .unmapped => false

/-- What a read of a target answers when it is not refused: R33 to R53, R73, R74. CMD and KEY read 0 (R44, R51). -/
def readTarget (s : State) : Target → Word
  | .id => Config.idValue
  | .version => Config.versionValue
  | .param => BitVec.ofNat 32 s.bufSize
  | .ctrl => ctrlWord s
  | .status => statusWord s
  | .result => resultWord s
  | .outlen => s.outlen
  | .cmd => 0
  | .keylen => s.ops.keylen
  | .aadoff => s.ops.aadoff
  | .aadlen => s.ops.aadlen
  | .inoff => s.ops.inoff
  | .inlen => s.ops.inlen
  | .outoff => s.ops.outoff
  | .key _ => 0
  | .iv i => s.ops.iv[i]
  | .reserved => 0
  | .buffer k =>
    le32 (Memory.read s.buf k) (Memory.read s.buf (k + 1)) (Memory.read s.buf (k + 2))
      (Memory.read s.buf (k + 3))
  | .unmapped => 0

/-- What a write of a target does when it is not refused: R33 to R53, R73, R74, R77. -/
def writeTarget (v : Word) (s : State) : Target → State
  | .id => s
  | .version => s
  | .param => s
  | .ctrl => writeCtrl v s
  | .status => writeStatus v s
  | .result => s
  | .outlen => s
  | .cmd => accept v s
  | .keylen => { s with ops := { s.ops with keylen := v } }
  | .aadoff => { s with ops := { s.ops with aadoff := v } }
  | .aadlen => { s with ops := { s.ops with aadlen := v } }
  | .inoff => { s with ops := { s.ops with inoff := v } }
  | .inlen => { s with ops := { s.ops with inlen := v } }
  | .outoff => { s with ops := { s.ops with outoff := v } }
  | .key i => { s with ops := { s.ops with key := s.ops.key.set i v } }
  | .iv i => { s with ops := { s.ops with iv := s.ops.iv.set i v } }
  | .reserved => s
  | .buffer k => { s with buf := Memory.writeBytes s.buf k (lanes 4 v) }
  | .unmapped => s

/-- A refused access sets ACCERR and answers `rdata`, 0 for a read and nothing for a write (R76, R78). -/
def refuseAccess (answer : Option Word) (s : State) : State :=
  { s with accerr := true, rdata := answer }

/-- The access is refused: not legal (R76), or to a busy-locked target while BUSY = 1 (R78). -/
def refused (off : Offset) (size : AccessSize) (s : State) : Bool :=
  !legalAccess off size || (isBusy s && busyLocked (targetOf s.bufSize off))

/-- A host read (R70, `host_access` of R78). While `rst_n` is held it answers 0 and sets no flag (R280). -/
def hostRead (off : Offset) (size : AccessSize) (s : State) : State :=
  if s.rstHeld then { s with rdata := some 0 }
  else if refused off size s then refuseAccess (some 0) s
  else { s with rdata := some (readTarget s (targetOf s.bufSize off)) }

/-- A host write (R70, `host_access` of R78). While `rst_n` is held it is ignored and sets no flag (R280). -/
def hostWrite (off : Offset) (size : AccessSize) (v : Word) (s : State) : State :=
  if s.rstHeld then { s with rdata := none }
  else if refused off size s then refuseAccess none s
  else writeTarget v { s with rdata := none } (targetOf s.bufSize off)

end Sys2Proof.Machine
end

