-- ==== Sys2Proof/Machine/Aes.lean ====
section
/-!
DEFINITION. The AES-256 block cipher (spec 41 R170 to R186).
-/

namespace Sys2Proof.Machine

/-! ## Byte arithmetic (R172) -/

/-- `xtime(a)`, the product of `a` by 0x02 (R172). -/
def xtime (a : Byte) : Byte :=
  if a.msb then (a <<< 1) ^^^ 0x1B else a <<< 1

/-- The sum of the terms `a • x^i` over the set bits of `b`, the lowest `n` bits of it (R172). -/
def gmulBits : (n : Nat) → Byte → Byte → Byte
  | 0, _, _ => 0
  | n + 1, a, b => (if b.getLsbD 0 then a else 0) ^^^ gmulBits n (xtime a) (b >>> 1)

/-- The product `a • b`: "any product is a sum of xtime powers" (R172). -/
def gmul (a b : Byte) : Byte := gmulBits 8 a b

/-! ## The tables (R173, R181) -/

/-- The S-box table, a row of sixteen bytes for each high nibble, column 0 the most significant byte (R173). -/
def sboxRows : List Nat :=
  [ 0x637c777bf26b6fc53001672bfed7ab76, 0xca82c97dfa5947f0add4a2af9ca472c0,
    0xb7fd9326363ff7cc34a5e5f171d83115, 0x04c723c31896059a071280e2eb27b275,
    0x09832c1a1b6e5aa0523bd6b329e32f84, 0x53d100ed20fcb15b6acbbe394a4c58cf,
    0xd0efaafb434d338545f9027f503c9fa8, 0x51a3408f929d38f5bcb6da2110fff3d2,
    0xcd0c13ec5f974417c4a77e3d645d1973, 0x60814fdc222a908846eeb814de5e0bdb,
    0xe0323a0a4906245cc2d3ac629195e479, 0xe7c8376d8dd54ea96c56f4ea657aae08,
    0xba78252e1ca6b4c6e8dd741f4bbd8b8a, 0x703eb5664803f60e613557b986c11d9e,
    0xe1f8981169d98e949b1e87e9ce5528df, 0x8ca1890dbfe6426841992d0fb054bb16 ]

/-- The inverse S-box table, laid out as the S-box (R181). -/
def invSboxRows : List Nat :=
  [ 0x52096ad53036a538bf40a39e81f3d7fb, 0x7ce339829b2fff87348e4344c4dee9cb,
    0x547b9432a6c2233dee4c950b42fac34e, 0x082ea16628d924b2765ba2496d8bd125,
    0x72f8f66486689816d4a45ccc5d65b692, 0x6c704850fdedb9da5e154657a78d9d84,
    0x90d8ab008cbcd30af7e45805b8b34506, 0xd02c1e8fca3f0f02c1afbd0301138a6b,
    0x3a9111414f67dcea97f2cfcef0b4e673, 0x96ac7422e7ad3585e2f937e81c75df6e,
    0x47f11a711d29c5896fb7620eaa18be1b, 0xfc563e4bc6d279209adbc0fe78cd5af4,
    0x1fdda8338807c731b11210592780ec5f, 0x60517fa919b54a0d2de57a9f93c99cef,
    0xa0e03b4dae2af5b0c8ebbb3c83539961, 0x172b047eba77d626e169146355210c7d ]

/-- The entry of a table at row `a[7:4]`, column `a[3:0]`. -/
def tableAt (rows : List Nat) (a : Byte) : Byte :=
  BitVec.ofNat 8 (rows.getD (a.toNat / 16) 0 >>> (8 * (15 - a.toNat % 16)))

/-- `SBOX(a)` (R173). -/
def sbox (a : Byte) : Byte := tableAt sboxRows a

/-- `INV_SBOX(a)` (R181). -/
def invSbox (a : Byte) : Byte := tableAt invSboxRows a

/-! ## Words and the state (R171) -/

/-- A 4-byte word `w0 w1 w2 w3`, which is also a column of the state (R171). -/
structure Column where
  b0 : Byte
  b1 : Byte
  b2 : Byte
  b3 : Byte
deriving DecidableEq, Repr

/-- The 4 x 4 state by columns: `s[r, c]` is byte `r` of column `c` (R171). -/
structure AesState where
  c0 : Column
  c1 : Column
  c2 : Column
  c3 : Column
deriving DecidableEq, Repr

/-- The column of bytes `4i` to `4i + 3` of a byte string. -/
def columnAt (b : Bytes) (i : Nat) : Column :=
  ⟨b.getD (4 * i) 0, b.getD (4 * i + 1) 0, b.getD (4 * i + 2) 0, b.getD (4 * i + 3) 0⟩

/-- Loading the state, `s[r, c] = in[r + 4c]` (R171). -/
def loadState (b : Bytes) : AesState :=
  ⟨columnAt b 0, columnAt b 1, columnAt b 2, columnAt b 3⟩

/-- The bytes of a column, `w0` first. -/
def Column.bytes (w : Column) : Bytes := [w.b0, w.b1, w.b2, w.b3]

/-- Storing the state, `out[r + 4c] = s[r, c]` (R171). -/
def storeState (s : AesState) : Bytes :=
  s.c0.bytes ++ s.c1.bytes ++ s.c2.bytes ++ s.c3.bytes

/-- A function applied to every byte of a column. -/
def Column.map (f : Byte → Byte) (w : Column) : Column := ⟨f w.b0, f w.b1, f w.b2, f w.b3⟩

/-- The exclusive-or of two words, byte by byte. -/
def Column.xor (v w : Column) : Column :=
  ⟨v.b0 ^^^ w.b0, v.b1 ^^^ w.b1, v.b2 ^^^ w.b2, v.b3 ^^^ w.b3⟩

/-- A function applied to every column of a state. -/
def AesState.mapColumns (f : Column → Column) (s : AesState) : AesState :=
  ⟨f s.c0, f s.c1, f s.c2, f s.c3⟩

/-! ## The transformations (R174 to R177, R182 to R184) -/

/-- SubBytes (R174). -/
def subBytes (s : AesState) : AesState := s.mapColumns (Column.map sbox)

/-- ShiftRows: `ShiftRows(s)[r, c] = s[r, (c + r) mod 4]` (R175). -/
def shiftRows (s : AesState) : AesState :=
  ⟨⟨s.c0.b0, s.c1.b1, s.c2.b2, s.c3.b3⟩, ⟨s.c1.b0, s.c2.b1, s.c3.b2, s.c0.b3⟩,
   ⟨s.c2.b0, s.c3.b1, s.c0.b2, s.c1.b3⟩, ⟨s.c3.b0, s.c0.b1, s.c1.b2, s.c2.b3⟩⟩

/-- A column times the matrix whose first row is `(m0, m1, m2, m3)` and whose every row is the one above it turned
right by one (the shape of R176 and R184). -/
def mulColumn (m0 m1 m2 m3 : Byte) (a : Column) : Column :=
  ⟨gmul m0 a.b0 ^^^ gmul m1 a.b1 ^^^ gmul m2 a.b2 ^^^ gmul m3 a.b3,
   gmul m3 a.b0 ^^^ gmul m0 a.b1 ^^^ gmul m1 a.b2 ^^^ gmul m2 a.b3,
   gmul m2 a.b0 ^^^ gmul m3 a.b1 ^^^ gmul m0 a.b2 ^^^ gmul m1 a.b3,
   gmul m1 a.b0 ^^^ gmul m2 a.b1 ^^^ gmul m3 a.b2 ^^^ gmul m0 a.b3⟩

/-- MixColumns (R176). -/
def mixColumns (s : AesState) : AesState := s.mapColumns (mulColumn 0x02 0x03 0x01 0x01)

/-- AddRoundKey: column `c` is xored with word `w[4r + c]` (R177). -/
def addRoundKey (w : List Column) (r : Nat) (s : AesState) : AesState :=
  ⟨s.c0.xor (columnOf w (4 * r)), s.c1.xor (columnOf w (4 * r + 1)),
   s.c2.xor (columnOf w (4 * r + 2)), s.c3.xor (columnOf w (4 * r + 3))⟩
where
  /-- Word `j` of the round keys; every index the cipher uses is below 60. -/
  columnOf (w : List Column) (j : Nat) : Column := w.getD j ⟨0, 0, 0, 0⟩

/-- InvSubBytes (R182). -/
def invSubBytes (s : AesState) : AesState := s.mapColumns (Column.map invSbox)

/-- InvShiftRows: `InvShiftRows(s)[r, c] = s[r, (c - r) mod 4]` (R183). -/
def invShiftRows (s : AesState) : AesState :=
  ⟨⟨s.c0.b0, s.c3.b1, s.c2.b2, s.c1.b3⟩, ⟨s.c1.b0, s.c0.b1, s.c3.b2, s.c2.b3⟩,
   ⟨s.c2.b0, s.c1.b1, s.c0.b2, s.c3.b3⟩, ⟨s.c3.b0, s.c2.b1, s.c1.b2, s.c0.b3⟩⟩

/-- InvMixColumns (R184). -/
def invMixColumns (s : AesState) : AesState := s.mapColumns (mulColumn 0x0e 0x0b 0x0d 0x09)

/-! ## Key expansion (R178, R179) -/

/-- RotWord (R178). -/
def rotWord (w : Column) : Column := ⟨w.b1, w.b2, w.b3, w.b0⟩

/-- SubWord (R178). -/
def subWord (w : Column) : Column := w.map sbox

/-- `RCON[j]` is `xtime^(j-1)(0x01)` (R179). -/
def rcon : Nat → Byte
  | 0 => 0x01
  | 1 => 0x01
  | j + 2 => xtime (rcon (j + 1))

/-- `w[i]` from the words before it, which `rev` lists with `w[i-1]` first (R178). -/
def nextKeyWord (i : Nat) (rev : List Column) : Column :=
  let t := rev.getD 0 ⟨0, 0, 0, 0⟩
  let u :=
    if i % 8 = 0 then (subWord (rotWord t)).xor ⟨rcon (i / 8), 0, 0, 0⟩
    else if i % 8 = 4 then subWord t
    else t
  (rev.getD 7 ⟨0, 0, 0, 0⟩).xor u

/-- `n` more words from `w[i]` on, the newest first (R178). -/
def expandKeyWords : (n i : Nat) → List Column → List Column
  | 0, _, rev => rev
  | n + 1, i, rev => expandKeyWords n (i + 1) (nextKeyWord i rev :: rev)

/-- The words `w[0..60)` of a 32-byte key (R178). -/
def keyExpansion (k : Bytes) : List Column :=
  (expandKeyWords 52 8 ((List.range 8).map (columnAt k)).reverse).reverse

/-! ## The cipher and its inverse (R180, R185) -/

/-- Rounds 1 to `n`, in that order (R180). -/
def cipherRounds (w : List Column) : (n : Nat) → AesState → AesState
  | 0, s => s
  | n + 1, s => addRoundKey w (n + 1) (mixColumns (shiftRows (subBytes (cipherRounds w n s))))

/-- The cipher under round keys `w` (R180). -/
def cipher (w : List Column) (s : AesState) : AesState :=
  addRoundKey w 14 (shiftRows (subBytes (cipherRounds w 13 (addRoundKey w 0 s))))

/-- Rounds `n` down to 1, in that order (R185). -/
def invCipherRounds (w : List Column) : (n : Nat) → AesState → AesState
  | 0, s => s
  | n + 1, s =>
    invCipherRounds w n (invMixColumns (addRoundKey w (n + 1) (invSubBytes (invShiftRows s))))

/-- The inverse cipher under round keys `w` (R185). -/
def invCipher (w : List Column) (s : AesState) : AesState :=
  addRoundKey w 0 (invSubBytes (invShiftRows (invCipherRounds w 13 (addRoundKey w 14 s))))

/-- One block encrypted under expanded round keys. -/
def encryptBlock (w : List Column) (b : Bytes) : Bytes := storeState (cipher w (loadState b))

/-- One block decrypted under expanded round keys. -/
def decryptBlock (w : List Column) (b : Bytes) : Bytes := storeState (invCipher w (loadState b))

/-- `AES_ENC(k, b)` (R170, R180). -/
def aesEnc (k b : Bytes) : Bytes := encryptBlock (keyExpansion k) b

/-- `AES_DEC(k, b)` (R170, R185). -/
def aesDec (k b : Bytes) : Bytes := decryptBlock (keyExpansion k) b

end Sys2Proof.Machine
end

