-- ==== Sys2Proof/Machine/Cbc.lean ====
section
/-!
DEFINITION. CBC mode (spec 41 R187 to R191) and PKCS#7 padding (R192, R193).
-/

namespace Sys2Proof.Machine

/-- `blocks(X)` for a block-aligned byte string (R187). -/
def aesBlocks (x : Bytes) : List Bytes :=
  blocksOf Config.aesBlockBytes (x.length / Config.aesBlockBytes) x

/-- The CBC chain of encryption under round keys `w` from the chaining value `c` (R189, R190). -/
def cbcEncBlocks (w : List Column) : (c : Bytes) → List Bytes → Bytes
  | _, [] => []
  | c, x :: xs =>
    let y := encryptBlock w (xorBytes x c)
    y ++ cbcEncBlocks w y xs

/-- The CBC chain of decryption under round keys `w` from the chaining value `c` (R189, R191). -/
def cbcDecBlocks (w : List Column) : (c : Bytes) → List Bytes → Bytes
  | _, [] => []
  | c, y :: ys => xorBytes (decryptBlock w y) c ++ cbcDecBlocks w y ys

/-- `CBC_ENC(k, iv, X)` (R190). The key is expanded afresh for each command (R188). -/
def cbcEnc (k iv x : Bytes) : Bytes := cbcEncBlocks (keyExpansion k) iv (aesBlocks x)

/-- `CBC_DEC(k, iv, E)` (R191). -/
def cbcDec (k iv e : Bytes) : Bytes := cbcDecBlocks (keyExpansion k) iv (aesBlocks e)

/-- The number `p` of padding bytes (R192). -/
def padLength (n : Nat) : Nat := Config.aesBlockBytes - n % Config.aesBlockBytes

/-- `PKCS7_PAD(Pt)` (R192). -/
def pkcs7Pad (pt : Bytes) : Bytes :=
  pt ++ rep (BitVec.ofNat 8 (padLength pt.length)) (padLength pt.length)

/-- The value of the last byte, `p = X[16m - 1]` (R193). -/
def lastByteValue (x : Bytes) : Nat := (x.getD (x.length - 1) 0).toNat

/-- `1 <= p <= 16` and `X[16m - i] = p` for every i = 1..p (R193). Every padding byte is checked. -/
def paddingOk (x : Bytes) (p : Nat) : Bool :=
  decide (1 ≤ p) && decide (p ≤ Config.aesBlockBytes) &&
  (List.range p).all fun i => x.getD (x.length - (i + 1)) 0 == BitVec.ofNat 8 p

/-- `PKCS7_UNPAD(X)` (R193): `some Pt` for `(true, Pt)`, `none` for `(false, empty)`. -/
def pkcs7Unpad (x : Bytes) : Option Bytes :=
  if paddingOk x (lastByteValue x) then some (x.take (x.length - lastByteValue x)) else none

end Sys2Proof.Machine
end

