-- ==== Sys2Proof/Machine/Sha512.lean ====
section
/-!
DEFINITION. SHA-512 (spec 42 R210 to R216), HMAC-SHA-512 (R217 to R219) and the tag (R221 to R224).
-/

namespace Sys2Proof.Machine

/-! ## Words and functions (R210) -/

/-- `ROTR^n(x)` (R210). -/
def rotr (n : Nat) (x : Word64) : Word64 := (x >>> n) ||| (x <<< (64 - n))

/-- `SHR^n(x)` (R210). -/
def shr (n : Nat) (x : Word64) : Word64 := x >>> n

def ch (x y z : Word64) : Word64 := (x &&& y) ^^^ (~~~x &&& z)

def maj (x y z : Word64) : Word64 := (x &&& y) ^^^ (x &&& z) ^^^ (y &&& z)

/-- `Σ0(x)` (R210). -/
def bigSigma0 (x : Word64) : Word64 := rotr 28 x ^^^ rotr 34 x ^^^ rotr 39 x

/-- `Σ1(x)` (R210). -/
def bigSigma1 (x : Word64) : Word64 := rotr 14 x ^^^ rotr 18 x ^^^ rotr 41 x

/-- `σ0(x)` (R210). -/
def smallSigma0 (x : Word64) : Word64 := rotr 1 x ^^^ rotr 8 x ^^^ shr 7 x

/-- `σ1(x)` (R210). -/
def smallSigma1 (x : Word64) : Word64 := rotr 19 x ^^^ rotr 61 x ^^^ shr 6 x

/-! ## Constants (R211, R212) -/

/-- The eight words `a` to `h`, which are also the hash value `H_0` to `H_7` (R215). -/
structure HashState where
  a : Word64
  b : Word64
  c : Word64
  d : Word64
  e : Word64
  f : Word64
  g : Word64
  h : Word64
deriving DecidableEq, Repr

/-- The initial hash value `H^(0)` (R211). -/
def initialHash : HashState :=
  ⟨0x6a09e667f3bcc908, 0xbb67ae8584caa73b, 0x3c6ef372fe94f82b, 0xa54ff53a5f1d36f1,
   0x510e527fade682d1, 0x9b05688c2b3e6c1f, 0x1f83d9abfb41bd6b, 0x5be0cd19137e2179⟩

/-- The first ten lines of the table of R212, `K_0..3` to `K_36..39`: four words a line, the first the most
significant. -/
def roundConstantLinesLow : List Nat :=
  [ 0x428a2f98d728ae22_7137449123ef65cd_b5c0fbcfec4d3b2f_e9b5dba58189dbbc,
    0x3956c25bf348b538_59f111f1b605d019_923f82a4af194f9b_ab1c5ed5da6d8118,
    0xd807aa98a3030242_12835b0145706fbe_243185be4ee4b28c_550c7dc3d5ffb4e2,
    0x72be5d74f27b896f_80deb1fe3b1696b1_9bdc06a725c71235_c19bf174cf692694,
    0xe49b69c19ef14ad2_efbe4786384f25e3_0fc19dc68b8cd5b5_240ca1cc77ac9c65,
    0x2de92c6f592b0275_4a7484aa6ea6e483_5cb0a9dcbd41fbd4_76f988da831153b5,
    0x983e5152ee66dfab_a831c66d2db43210_b00327c898fb213f_bf597fc7beef0ee4,
    0xc6e00bf33da88fc2_d5a79147930aa725_06ca6351e003826f_142929670a0e6e70,
    0x27b70a8546d22ffc_2e1b21385c26c926_4d2c6dfc5ac42aed_53380d139d95b3df,
    0x650a73548baf63de_766a0abb3c77b2a8_81c2c92e47edaee6_92722c851482353b ]

/-- The last ten lines of the table of R212, `K_40..43` to `K_76..79`. -/
def roundConstantLinesHigh : List Nat :=
  [ 0xa2bfe8a14cf10364_a81a664bbc423001_c24b8b70d0f89791_c76c51a30654be30,
    0xd192e819d6ef5218_d69906245565a910_f40e35855771202a_106aa07032bbd1b8,
    0x19a4c116b8d2d0c8_1e376c085141ab53_2748774cdf8eeb99_34b0bcb5e19b48a8,
    0x391c0cb3c5c95a63_4ed8aa4ae3418acb_5b9cca4f7763e373_682e6ff3d6b2b8a3,
    0x748f82ee5defb2fc_78a5636f43172f60_84c87814a1f0ab72_8cc702081a6439ec,
    0x90befffa23631e28_a4506cebde82bde9_bef9a3f7b2c67915_c67178f2e372532b,
    0xca273eceea26619c_d186b8c721c0c207_eada7dd6cde0eb1e_f57d4f7fee6ed178,
    0x06f067aa72176fba_0a637dc5a2c898a6_113f9804bef90dae_1b710b35131c471b,
    0x28db77f523047d84_32caab7b40c72493_3c9ebe0a15c9bebc_431d67c49c100d4c,
    0x4cc5d4becb3e42b6_597f299cfc657e2a_5fcb6fab3ad6faec_6c44198c4a475817 ]

/-- The four words of a line of the table (R212). -/
def lineWords (line : Nat) : List Word64 :=
  (List.range 4).map fun j => BitVec.ofNat 64 (line >>> (64 * (3 - j)))

/-- The round constants `K_0` to `K_79` (R212). -/
def roundConstants : List Word64 := (roundConstantLinesLow ++ roundConstantLinesHigh).flatMap lineWords

/-! ## Padding, schedule, compression, digest (R213 to R216) -/

/-- `pad512(M)` (R213); `z = (111 - len(M)) mod 128`, written without a negative number. -/
def pad512 (m : Bytes) : Bytes :=
  m ++ [0x80] ++ zeros ((239 - m.length % 128) % 128) ++ be128 (8 * m.length)

/-- The sixteen words `M_0` to `M_15` of a 128-byte block, each big-endian (R213). -/
def blockWords (b : Bytes) : List Word64 :=
  (blocksOf 8 16 b).map fun x => BitVec.ofNat 64 (beValue x)

/-- `W_t` from the words before it, which `rev` lists with `W_(t-1)` first (R214). -/
def nextScheduleWord (rev : List Word64) : Word64 :=
  smallSigma1 (rev.getD 1 0) + rev.getD 6 0 + smallSigma0 (rev.getD 14 0) + rev.getD 15 0

/-- `n` more words of the schedule, the newest first (R214). -/
def extendSchedule : (n : Nat) → List Word64 → List Word64
  | 0, rev => rev
  | n + 1, rev => extendSchedule n (nextScheduleWord rev :: rev)

/-- The message schedule `W_0` to `W_79` of a block (R214). -/
def schedule (b : Bytes) : List Word64 := (extendSchedule 64 (blockWords b).reverse).reverse

/-- One round of the compression with `K_t` and `W_t` (R215). -/
def shaRound (s : HashState) (kt wt : Word64) : HashState :=
  let t1 := s.h + bigSigma1 s.e + ch s.e s.f s.g + kt + wt
  let t2 := bigSigma0 s.a + maj s.a s.b s.c
  ⟨t1 + t2, s.a, s.b, s.c, s.d + t1, s.e, s.f, s.g⟩

/-- The rounds over two lists of equal length, `K` and `W` (R215). -/
def shaRounds : List Word64 → List Word64 → HashState → HashState
  | k :: ks, w :: ws, s => shaRounds ks ws (shaRound s k w)
  | _, _, s => s

/-- `H_j + x_j` for the eight words (R215). -/
def HashState.add (x y : HashState) : HashState :=
  ⟨x.a + y.a, x.b + y.b, x.c + y.c, x.d + y.d, x.e + y.e, x.f + y.f, x.g + y.g, x.h + y.h⟩

/-- Compression of one block into the hash value (R215). -/
def compress (hash : HashState) (b : Bytes) : HashState :=
  hash.add (shaRounds roundConstants (schedule b) hash)

/-- The 64 bytes `be64(H_0) || ... || be64(H_7)` (R216). -/
def HashState.bytes (s : HashState) : Bytes :=
  be64 s.a.toNat ++ be64 s.b.toNat ++ be64 s.c.toNat ++ be64 s.d.toNat ++
  be64 s.e.toNat ++ be64 s.f.toNat ++ be64 s.g.toNat ++ be64 s.h.toNat

/-- `SHA512(M)` (R216). -/
def sha512 (m : Bytes) : Bytes :=
  let p := pad512 m
  ((blocksOf Config.shaBlockBytes (p.length / Config.shaBlockBytes) p).foldl compress initialHash).bytes

/-! ## HMAC-SHA-512 (R217 to R220) -/

/-- The key block `K0` (R217). The block's own keys are 32 bytes long (R220). -/
def hmacKeyBlock (k : Bytes) : Bytes :=
  if k.length ≤ Config.shaBlockBytes then k ++ zeros (Config.shaBlockBytes - k.length)
  else sha512 k ++ zeros 64

/-- `ipad` (R218). -/
def ipad : Bytes := rep 0x36 Config.shaBlockBytes

/-- `opad` (R218). -/
def opad : Bytes := rep 0x5c Config.shaBlockBytes

/-- `HMAC512(k, m)` (R219). -/
def hmac512 (k m : Bytes) : Bytes :=
  sha512 (xorBytes (hmacKeyBlock k) opad ++ sha512 (xorBytes (hmacKeyBlock k) ipad ++ m))

/-! ## Truncation, length block, transcript, tag (R221 to R224) -/

/-- `TRUNC32(M)` (R221). -/
def trunc32 (m : Bytes) : Bytes := slice m 0 Config.tagBytes

/-- `AL(A) = be64(8 * len(A))` (R222). -/
def aadLengthBlock (a : Bytes) : Bytes := be64 (8 * a.length)

/-- `TRANSCRIPT(A, IV, E)` (R223). -/
def transcript (a iv e : Bytes) : Bytes := a ++ iv ++ e ++ aadLengthBlock a

/-- `TAG(macKey, A, IV, E)` (R224). -/
def tag (macKey a iv e : Bytes) : Bytes := trunc32 (hmac512 macKey (transcript a iv e))

end Sys2Proof.Machine
end

