-- ==== Sys2Proof/Machine/TagCompare.lean ====
section
/-!
DEFINITION. The tag comparator (spec 43 R240 to R242).
-/

namespace Sys2Proof.Machine

/-- The accumulator after the first `n` byte pairs: `acc or (T[i] xor T2[i])` (R240). -/
def tagDifference (t t2 : Bytes) : (n : Nat) → Byte
  | 0 => 0x00
  | n + 1 => tagDifference t t2 n ||| (t.getD n 0 ^^^ t2.getD n 0)

/-- `CT_EQ(T, T2)`: all 32 byte pairs, whatever their values (R240, R241). -/
def ctEq (t t2 : Bytes) : Bool := tagDifference t t2 Config.tagBytes == 0x00

end Sys2Proof.Machine
end

