-- ==== Sys2Proof/Machine/Aead.lean ====
section
/-!
DEFINITION. The composite construction as pure functions of byte strings: what ENCRYPT and DECRYPT compute (spec 40
R133, R134) between their operands and their output.
-/

namespace Sys2Proof.Machine

/-- `encrypt(key, plaintext, associatedData)` under a given IV: the blob `IV || E || T` (R120, R133). -/
def aeadEncrypt (k iv pt a : Bytes) : Bytes :=
  let e := cbcEnc (encKeyOf k) iv (pkcs7Pad pt)
  iv ++ e ++ tag (macKeyOf k) a iv e

/-- The structure check of a blob of `n` bytes fails (R134, R253 (a) and (b)). -/
def badStructure (n : Nat) : Bool := decide (n < 64) || decide ((n - 48) % 16 ≠ 0)

/-- The parts of a blob (R134): `IV`, `E` and `T`. -/
def blobIv (c : Bytes) : Bytes := slice c 0 Config.ivBytes
def blobBody (c : Bytes) : Bytes := slice c Config.ivBytes (c.length - Config.tagBytes)
def blobTag (c : Bytes) : Bytes := slice c (c.length - Config.tagBytes) c.length

/-- `decrypt(key, ciphertextBlob, associatedData)`: the plaintext, or `none` for InvalidCiphertext (R120, R134). The
order is structure, tag, decryption, padding (R125, R138); every failure has the same answer (R139). -/
def aeadDecrypt (k c a : Bytes) : Option Bytes :=
  if badStructure c.length then none
  else if !ctEq (blobTag c) (tag (macKeyOf k) a (blobIv c) (blobBody c)) then none
  else pkcs7Unpad (cbcDec (encKeyOf k) (blobIv c) (blobBody c))

end Sys2Proof.Machine
end

