-- ==== Sys2Proof/Machine/Commands.lean ====
section
/-!
DEFINITION. The meanings of the four commands (spec 40 R132 to R135): what the completion of each does.
-/

namespace Sys2Proof.Machine

/-- NOP (R132). -/
def execNop (s : State) : Host.Outcome State Fault Refusal :=
  complete s fun _ s => finish .ok 0 s

/-- The end of an ENCRYPT that has its IV: the blob is written at OUTOFF in one piece (R133). -/
def finishEncrypt (iv : Bytes) (snap : Snapshot) (s : State) : State :=
  let blob := aeadEncrypt (compositeKey snap) iv (inputOperand snap s) (aadOperand snap s)
  finish .ok (encLength snap) { s with buf := Memory.writeBytes s.buf snap.ops.outoff.toNat blob }

/-- ENCRYPT (R133): key length, regions, IV, output. With the entropy port as IV source and no answer yet, it asks
for one and stays BUSY (R131; log 9). -/
def execEncrypt (s : State) : Host.Outcome State Fault Refusal :=
  complete s fun snap s =>
    if !keyLengthOk snap then raiseFailure .invalidCryptoKey snap s
    else if !encRegionsOk s.bufSize snap then raiseFailure .badRegion snap s
    else
      match obtainIv snap s with
      | none => requestEntropy s
      | some iv => finishEncrypt iv snap s

/-- The end of a DECRYPT that succeeds: the plaintext, then zeros to the end of the reserved region (R134). -/
def finishDecrypt (pt : Bytes) (snap : Snapshot) (s : State) : State :=
  let off := snap.ops.outoff.toNat
  finish .ok pt.length
    { s with
      buf := Memory.zeroFill (Memory.writeBytes s.buf off pt) (off + pt.length)
        (decReserved snap - pt.length) }

/-- DECRYPT (R134): key length, regions, then structure, tag and padding, which fail alike (R139). -/
def execDecrypt (s : State) : Host.Outcome State Fault Refusal :=
  complete s fun snap s =>
    if !keyLengthOk snap then raiseFailure .invalidCryptoKey snap s
    else if !decRegionsOk s.bufSize snap then raiseFailure .badRegion snap s
    else
      match aeadDecrypt (compositeKey snap) (inputOperand snap s) (aadOperand snap s) with
      | none => raiseFailure .invalidCiphertext snap s
      | some pt => finishDecrypt pt snap s

/-- ZEROIZE (R135): the whole buffer, the key and IV files and the operand registers; CTRL and ACCERR are kept. -/
def execZeroize (s : State) : Host.Outcome State Fault Refusal :=
  complete s fun _ s =>
    finish .ok 0
      { s with
        buf := Memory.zeroFill s.buf 0 s.bufSize
        ops := OperandRegs.cleared }

end Sys2Proof.Machine
end

