-- ==== Sys2Proof/Machine/Reset.lean ====
section
/-!
DEFINITION. The reset agent (spec 70 R280 to R283, 10 R61, R62).
-/

namespace Sys2Proof.Machine

/-- `W(S)` as an offset and a length: the bytes the completion of the command in flight could write (R282). -/
def abortedRegion (s : State) : Nat × Nat :=
  match s.phase with
  | .idle => (0, 0)
  | .busy snap =>
    match decode snap.cmd with
    | .command .nop => (0, 0)
    | .command .encrypt =>
      if keyLengthOk snap && encRegionsOk s.bufSize snap then (snap.ops.outoff.toNat, encLength snap)
      else (0, 0)
    | .command .decrypt =>
      if keyLengthOk snap && decRegionsOk s.bufSize snap then (snap.ops.outoff.toNat, decReserved snap)
      else (0, 0)
    | .command .zeroize => (0, s.bufSize)
    | .illegal _ => (0, 0)

/-- `n` free bytes from draw `first` on (R282; log 6). -/
def freeBytes (first n : Nat) : Bytes := (List.range n).map fun i => Config.freeByte (first + i)

/-- Every register, flag and hidden bit at its reset value (R61), with `rst_n` held; the buffer, BUF_SIZE and the
model's own fields stay. -/
def resetRegisters (s : State) : State :=
  { State.reset with
    bufSize := s.bufSize
    buf := s.buf
    rstHeld := true
    inputs := s.inputs
    draws := s.draws }

/-- A warm reset (R280 to R282): the buffer is kept, but the bytes of `W(S)` take any value. -/
def warmReset (s : State) : State :=
  { resetRegisters s with
    buf := Memory.writeBytes s.buf (abortedRegion s).1 (freeBytes s.draws (abortedRegion s).2)
    draws := s.draws + (abortedRegion s).2 }

/-- A power-on reset (R280): `BUF[i]` holds `BUF_INIT[i]` (R62; log 5). -/
def powerOnReset (bufInit : Bytes) (s : State) : State :=
  { resetRegisters s with buf := Memory.writeBytes [] 0 (bufInit.take s.bufSize) }

/-- The release of `rst_n` (R280, R283). -/
def releaseReset (s : State) : State := { s with rstHeld := false }

end Sys2Proof.Machine
end

