-- ==== Sys2Proof/Machine/Agents.lean ====
section
/-!
DEFINITION. What one step of each agent does (spec 00 R17).
-/

namespace Sys2Proof.Machine

/-- A turn of the sequencer, `complete()` of R123. While IDLE it has nothing to do (R31). A word that decodes to
ILLEGAL raises IllegalCommand (R136). -/
def sequencerTurn (s : State) : Host.Outcome State Fault Refusal :=
  match s.phase with
  | .idle => .next s
  | .busy snap =>
    match decode snap.cmd with
    | .command i => exec i s
    | .illegal _ => .next (raiseFailure .illegalCommand snap s)

/-- An answer of the entropy source: taken while ENTREQ = 1, by the completion that waits for it; ignored at any
other time (R131, R284; log 10). -/
def entropyAnswer (data : EntropyWord) (s : State) : Host.Outcome State Fault Refusal :=
  if isBusy s && s.entReq then sequencerTurn { s with entData := some data } else .next s

/-- One step of one agent (R17). -/
def applyInput (e : Input) (s : State) : Host.Outcome State Fault Refusal :=
  match e with
  | .hostRead off size => .next (hostRead off size s)
  | .hostWrite off size wdata => .next (hostWrite off size wdata s)
  | .sequencer => sequencerTurn s
  | .entropy data => entropyAnswer data s
  | .assertReset => .next (warmReset s)
  | .releaseReset => .next (releaseReset s)
  | .powerOn bufInit => .next (powerOnReset bufInit s)

/-- The step the schedule puts next (R84); with no input left, the sequencer's (R294, weak fairness; log 1). -/
def scheduledStep (s : State) : Host.Outcome State Fault Refusal :=
  match s.inputs with
  | [] => sequencerTurn s
  | e :: rest => applyInput e { s with inputs := rest }

/-- Acceptance of a command word, with the sequencer's turn as the very next step (R121, R123; log 2). -/
def placeCommand (v : Word) (s : State) : State :=
  { accept v s with rstHeld := false, inputs := .sequencer :: s.inputs }

end Sys2Proof.Machine
end

