-- ==== Sys2Proof/Machine/Step.lean ====
section
/-!
DEFINITION. One step of the block: one atomic step of one agent (spec 00 R17, 20 R84).
-/

namespace Sys2Proof.Machine

/-- One step. -/
def step (s : State) : Host.Outcome State Fault Refusal := scheduledStep s

/-- `s` with the word `w` accepted as a command, so that the next step runs it (log 2). The block fetches nothing
(10 R31): the word lies in the snapshot. -/
def State.withFetchWord (s : State) (_nbits w : Nat) : State := placeCommand (BitVec.ofNat 32 w) s

end Sys2Proof.Machine
end

