-- ==== Sys2Proof/Machine/HostProgram.lean ====
section
/-!
DEFINITION. The statements of host programs (spec 30 R106) as the host's inputs to the block. A host program is what
drives the block from outside; nothing of the block is decided here.
-/

namespace Sys2Proof.Machine

/-- `WR off, v` (R106). -/
def wr (off : Nat) (v : Word) : Input := .hostWrite (BitVec.ofNat 16 off) .four v

/-- `RD off` (R106). -/
def rd (off : Nat) : Input := .hostRead (BitVec.ofNat 16 off) .four

/-- `WRS off, s, v` (R106). -/
def wrs (off : Nat) (size : AccessSize) (v : Word) : Input := .hostWrite (BitVec.ofNat 16 off) size v

/-- `RDS off, s` (R106). -/
def rds (off : Nat) (size : AccessSize) : Input := .hostRead (BitVec.ofNat 16 off) size

/-- `CMD m`: `WR CMD, enc(m)` (R106). -/
def cmd (i : Instr) : Input := wr 0x01C (encode i)

/-- `ACK`: `WR STATUS, 0x00000002` (R106, R269). -/
def acknowledge : Input := wr 0x010 0x00000002

/-- One poll of `WAIT`, `RD STATUS`; the host repeats it until `waitOver` (R106). How often it does is the host's and
the schedule's. -/
def waitPoll : Input := rd 0x010

/-- The value that ends a `WAIT`: `(value & 0x3) = 0x2` (R106). -/
def waitOver (status : Word) : Bool := status &&& 0x3 == 0x2

/-- `le32` of the four bytes of `b` from `i` on, bytes past its end 0 (R13, and the `B'` of LDBUF in R106). -/
def wordAt (b : Bytes) (i : Nat) : Word :=
  le32 (b.getD i 0) (b.getD (i + 1) 0) (b.getD (i + 2) 0) (b.getD (i + 3) 0)

/-- The `n` writes of consecutive words of `b` from offset `off` on. -/
def wrWords (off n : Nat) (b : Bytes) : List Input :=
  (List.range n).map fun i => wr (off + 4 * i) (wordAt b (4 * i))

/-- `LDKEY k` (R106). -/
def ldKey (k : Bytes) : List Input := wrWords 0x040 16 k ++ [wr 0x020 64]

/-- `LDIV iv` (R106). -/
def ldIv (iv : Bytes) : List Input := wrWords 0x080 4 iv

/-- `LDBUF o, B` (R106). -/
def ldBuf (o : Nat) (b : Bytes) : List Input := wrWords (0x8000 + o) ((b.length + 3) / 4) b

/-- The reads of `RDBUF o, n` (R106). -/
def rdBuf (o n : Nat) : List Input := (List.range ((n + 3) / 4)).map fun i => rd (0x8000 + o + 4 * i)

end Sys2Proof.Machine
end

