-- ==== Sys2Proof/WellFormed.lean ====
section
/-!
DEFINITION. What is well formed: a command, a command word (spec 30 R100, R101) and the parameter BUF_SIZE (00 R10).
-/

namespace Sys2Proof

/-- A command has no operand field (R103), so every term is well formed. -/
def Instr.wf (i : Instr) : Bool :=
  match i with
  | .nop => true
  | .encrypt => true
  | .decrypt => true
  | .zeroize => true

/-- A word of the opcode map: RSVD is 0 and OPC is one of 0x0 to 0x3 (R101). -/
def commandWordWf (v : Word) : Bool :=
  rsvdField v == 0 && decide ((opcField v).toNat < 4)

/-- A legal BUF_SIZE: "a multiple of 4 with 256 <= BUF_SIZE <= 32768" (R10). -/
def bufSizeWf (n : Nat) : Bool :=
  n % 4 == 0 && decide (Config.bufSizeMin ≤ n) && decide (n ≤ Config.bufSizeMax)

end Sys2Proof
end

