-- ==== Sys2Proof/Safety.lean ====
section
/-!
DEFINITION. What a safe run of the block is, in the words the statements use: the rules a consistent state keeps, the
regions as propositions on natural numbers, and the runs of the machine.
-/

namespace Sys2Proof.Machine

/-- The regions of a command are accepted (spec 40 R126 to R128): the AAD, the input and an output of `n` bytes fit in
the buffer, and the output is disjoint from both. Written on natural numbers, so no sum wraps (00 R13). -/
def RegionsAccepted (bufSize n : Nat) (o : OperandRegs) : Prop :=
  o.aadoff.toNat + o.aadlen.toNat ≤ bufSize ∧
  o.inoff.toNat + o.inlen.toNat ≤ bufSize ∧
  o.outoff.toNat + n ≤ bufSize ∧
  (n = 0 ∨ o.inlen.toNat = 0 ∨ o.outoff.toNat + n ≤ o.inoff.toNat ∨
    o.inoff.toNat + o.inlen.toNat ≤ o.outoff.toNat) ∧
  (n = 0 ∨ o.aadlen.toNat = 0 ∨ o.outoff.toNat + n ≤ o.aadoff.toNat ∨
    o.aadoff.toNat + o.aadlen.toNat ≤ o.outoff.toNat)

/-- The length of the blob ENCRYPT makes from `p` bytes (R127, R143). -/
def blobLength (p : Nat) : Nat := 64 + 16 * (p / 16)

/-- The reserved output size of a DECRYPT of `n` bytes; 0 where `n < 48` (R128). -/
def reservedLength (n : Nat) : Nat := n - 48

/-- The command in flight is an ENCRYPT with the entropy port as IV source whose checks pass (R131). -/
def AwaitsEntropy (s : State) (snap : Snapshot) : Prop :=
  decode snap.cmd = .command .encrypt ∧ snap.ivsrc = false ∧ snap.ops.keylen.toNat = 64 ∧
  RegionsAccepted s.bufSize (blobLength snap.ops.inlen.toNat) snap.ops

/-- The aligned offset `o` names a busy-locked target: CMD to OUTOFF, KEY0 to KEY15 and IV0 to IV3, or a word of the
buffer window (10 R32, 20 R78). -/
def LockedOffset (bufSize o : Nat) : Prop :=
  (0x1C ≤ o ∧ o ≤ 0x34) ∨ (0x40 ≤ o ∧ o < 0x90) ∨ (0x8000 ≤ o ∧ o + 4 ≤ 0x8000 + bufSize)

/-- A host access that is refused: narrow or misaligned (20 R76), or to a busy-locked target while BUSY = 1 (R78). -/
def RefusedAccess (s : State) (off : Offset) (size : AccessSize) : Prop :=
  size ≠ .four ∨ off.toNat % 4 ≠ 0 ∨ (isBusy s = true ∧ LockedOffset s.bufSize off.toNat)

/-- The step that comes next is the host access `(off, size)`, a read or a write. -/
def nextAccesses (s : State) (off : Offset) (size : AccessSize) : Prop :=
  (∃ rest, s.inputs = .hostRead off size :: rest) ∨ ∃ v rest, s.inputs = .hostWrite off size v :: rest

/-- Every register, flag and hidden bit has its reset value (10 R61). -/
def RegistersReset (s : State) : Prop :=
  s.ivsrc = false ∧ s.ie = false ∧ s.phase = .idle ∧ s.done = false ∧ s.accerr = false ∧
  s.result = .none ∧ s.outlen = 0 ∧ s.ops = OperandRegs.cleared ∧ s.entReq = false

/-- What every reachable state keeps. -/
structure Consistent (s : State) : Prop where
  /-- BUF_SIZE is legal (00 R10). -/
  bufSize_legal : bufSizeWf s.bufSize = true
  /-- The buffer has its canonical form. -/
  buf_wf : Memory.wf s.buf = true
  /-- The buffer lists only offsets it has (10 R56). -/
  buf_below : Memory.below s.bufSize s.buf = true
  /-- No entropy answer is kept between steps (70 R284). -/
  port_clear : s.entData = none
  /-- While BUSY = 1 there is no record: DONE = 0, RESULT = NONE, OUTLEN = 0 (R38, R121, 70 R286). -/
  busy_record : ∀ snap, s.phase = .busy snap → s.done = false ∧ s.result = .none ∧ s.outlen = 0
  /-- "`S` equals the live registers during the whole BUSY phase except in IVSRC" (10 R58). -/
  busy_operands : ∀ snap, s.phase = .busy snap → snap.ops = s.ops
  /-- ENTREQ is 1 only while an ENCRYPT that has passed its checks waits for the entropy source (10 R60). -/
  request : s.entReq = true → ∃ snap, s.phase = .busy snap ∧ AwaitsEntropy s snap
  /-- A completion record has a code (R42, R124). -/
  done_record : s.done = true → s.result ≠ .none
  /-- OUTLEN is 0 unless the last command succeeded (R43). -/
  outlen_ok : s.result ≠ .ok → s.outlen = 0
  /-- OUTLEN bytes are in the buffer (R43). -/
  outlen_fits : s.outlen.toNat ≤ s.bufSize
  /-- While `rst_n` is held the registers have their reset values (70 R280). -/
  held : s.rstHeld = true → RegistersReset s

/-- The step that comes next is a reset (70 R280). -/
def nextIsReset (s : State) : Bool :=
  match s.inputs with
  | .assertReset :: _ => true
  | .powerOn _ :: _ => true
  | _ => false

/-- The step that comes next is the 32-bit host write of `v` at offset `off` (20 R70, R75). -/
def nextWrites (s : State) (off : Offset) (v : Word) : Prop :=
  ∃ rest, s.inputs = .hostWrite off .four v :: rest

/-- The states the machine can come to from `s`. -/
inductive Reaches (s : State) : State → Prop where
  | refl : Reaches s s
  | step {t u : State} : Reaches s t → step t = .next u → Reaches s u

end Sys2Proof.Machine
end

