-- ==== Sys2Proof/Certificates/Slice0/Obligations.lean ====
section
/-!
DEFINITION. The statements for the provers. Each docstring names the rule of the spec it states. Where a statement
rests on a choice of the model, its docstring names the log entry. In every statement the fields `inputs` (log 1),
`draws` (log 6), `entData` (log 10), `rdata` (log 11) and `rstHeld` (log 12) are the form the model gives to the schedule,
the draws, the entropy port, the answer on the host port and a held reset.
-/

open Sys2Proof Sys2Proof.Machine

/-! ## Encoding (spec 30) -/

/-- R102: decoding is a total function of the word, with four command words; acceptance takes any word. R102 and R104 say
only ILLEGAL of every other word: that the answer names a reason, and which of the two, is the model's choice (log 22). -/
def Obligations.DecodeFollowsTheOpcodeMap : Prop :=
  ∀ v : Word,
    (v.toNat = 0 → decode v = .command .nop) ∧
    (v.toNat = 1 → decode v = .command .encrypt) ∧
    (v.toNat = 2 → decode v = .command .decrypt) ∧
    (v.toNat = 3 → decode v = .command .zeroize) ∧
    (4 ≤ v.toNat → v.toNat < 16 → decode v = .illegal .reservedOpcode) ∧
    (16 ≤ v.toNat → decode v = .illegal .reservedBits) ∧
    ∀ s : State, ∃ snap, (accept v s).phase = .busy snap ∧ snap.cmd = v

/-- R101, R102, R106: a word decodes to a well-formed command exactly when it is that command's word, so each command
has one word; the table's numbering gives the same. -/
def Obligations.DecodeAndEncodeAgree : Prop :=
  ∀ i : Instr, i.wf = true →
    (∀ v : Word, decode v = .command i ↔ v = encode i) ∧ commandWordWf (encode i) = true ∧
    ∀ n w : Nat, w < 2 ^ 32 → (decodeTableWord n w = some i ↔ w = (encode i).toNat)

/-- 95 section 6: words written out from the encoding decode to the command, or to ILLEGAL, as the table of vectors says.
The reason an ILLEGAL word is given is the model's choice (log 22): the table says only ILLEGAL. -/
def Obligations.WordsOfTheVectorsDecode : Prop :=
  decode 0x00000000 = .command .nop ∧ decode 0x00000001 = .command .encrypt ∧
  decode 0x00000002 = .command .decrypt ∧ decode 0x00000003 = .command .zeroize ∧
  decode 0x00000004 = .illegal .reservedOpcode ∧ decode 0x0000000f = .illegal .reservedOpcode ∧
  decode 0x00000010 = .illegal .reservedBits ∧ decode 0x00000011 = .illegal .reservedBits ∧
  decode 0x80000001 = .illegal .reservedBits ∧ decode 0xffffffff = .illegal .reservedBits

/-! ## The step -/

/-- R123: a turn of the sequencer runs the decoded command of the snapshot; so does an entropy answer while ENTREQ is
1 (R131). That a turn is what an empty list of inputs gives is log 1; that `withFetchWord` places a command is
log 2. -/
def Obligations.StepRunsTheDecodedCommand : Prop :=
  ∀ (s : State) (snap : Snapshot) (i : Instr), s.phase = .busy snap → decode snap.cmd = .command i →
    (∀ rest, s.inputs = .sequencer :: rest → step s = exec i { s with inputs := rest }) ∧
    (s.inputs = [] → step s = exec i s) ∧
    (∀ d rest, s.inputs = .entropy d :: rest → s.entReq = true →
      step s = exec i { s with inputs := rest, entData := some d }) ∧
    ∀ (s₀ : State) (n : Nat),
      step (s₀.withFetchWord n (encode i).toNat) =
        exec i { accept (encode i) s₀ with rstHeld := false }

/-- R250, R70: no step of any agent stops the block. -/
def Obligations.EveryStepAnswersNext : Prop :=
  ∀ s : State, ∃ t, step s = .next t

/-- The state after reset keeps every rule of `Consistent`, and every register of it has the value of R61. The state
is released (log 12) and its BUF_SIZE is the default (log 3). -/
def Obligations.ResetStateIsConsistent : Prop :=
  Consistent State.reset ∧ RegistersReset State.reset ∧ irq State.reset = false ∧
  entReqOut State.reset = false ∧ readTarget State.reset .param = 16384 ∧ State.reset.rstHeld = false ∧
  sequencerTurn State.reset = .next State.reset

/-- Every step of every agent keeps every rule of `Consistent`, from every state that has them. -/
def Obligations.StepKeepsConsistent : Prop :=
  ∀ s t : State, Consistent s → step s = .next t → Consistent t

/-! ## Reset (spec 10 R61, R62; 70 R280 to R284) -/

/-- R61: a reset, power-on or warm, gives every register and hidden bit its reset value, and an ENCRYPT or DECRYPT
before a key is loaded ends with InvalidCryptoKey. -/
def Obligations.ResetGivesEveryRegisterItsValue : Prop :=
  ∀ (s : State) (e : Input) (rest : List Input), s.inputs = e :: rest →
    (e = .assertReset ∨ ∃ bufInit, e = .powerOn bufInit) →
    ∃ t, step s = .next t ∧
      readTarget t .id = 0xAE5CB512 ∧ readTarget t .version = 0x00010000 ∧
      readTarget t .param = BitVec.ofNat 32 s.bufSize ∧ t.bufSize = s.bufSize ∧
      t.ivsrc = false ∧ t.ie = false ∧ ctrlWord t = 0 ∧ statusWord t = 0 ∧
      t.done = false ∧ t.accerr = false ∧ t.result = .none ∧ resultWord t = 0 ∧ t.outlen = 0 ∧
      t.ops.keylen = 0 ∧ t.ops.aadoff = 0 ∧ t.ops.aadlen = 0 ∧ t.ops.inoff = 0 ∧ t.ops.inlen = 0 ∧
      t.ops.outoff = 0 ∧ (∀ i : Fin 16, t.ops.key[i] = 0) ∧ (∀ i : Fin 4, t.ops.iv[i] = 0) ∧
      t.entReq = false ∧ entReqOut t = false ∧ irq t = false ∧ t.phase = .idle ∧
      ∀ i, (i = .encrypt ∨ i = .decrypt) →
        ∃ u, exec i (accept (encode i) t) = .next u ∧ u.result = .invalidCryptoKey ∧ u.phase = .idle

/-- R282: a warm reset leaves free bytes where the aborted command could write, and keeps every other byte. That the
byte at offset `i` of the region is draw `draws + i` of the constant without a body is the model's choice (log 6); the
statement holds for every value of the counter. -/
def Obligations.WarmResetKeepsWhatNoCommandCouldWrite : Prop :=
  ∀ (s : State) (rest : List Input), s.inputs = .assertReset :: rest →
    ∃ t, step s = .next t ∧
      (s.phase = .idle → ∀ a, Memory.read t.buf a = Memory.read s.buf a) ∧
      ∀ snap, s.phase = .busy snap →
        (decode snap.cmd = .command .encrypt → snap.ops.keylen.toNat = 64 →
          RegionsAccepted s.bufSize (blobLength snap.ops.inlen.toNat) snap.ops →
          t.draws = s.draws + blobLength snap.ops.inlen.toNat ∧ ∀ a,
            if snap.ops.outoff.toNat ≤ a ∧ a < snap.ops.outoff.toNat + blobLength snap.ops.inlen.toNat
            then Memory.read t.buf a = Config.freeByte (s.draws + (a - snap.ops.outoff.toNat))
            else Memory.read t.buf a = Memory.read s.buf a) ∧
        (decode snap.cmd = .command .decrypt → snap.ops.keylen.toNat = 64 →
          RegionsAccepted s.bufSize (reservedLength snap.ops.inlen.toNat) snap.ops →
          t.draws = s.draws + reservedLength snap.ops.inlen.toNat ∧ ∀ a,
            if snap.ops.outoff.toNat ≤ a ∧ a < snap.ops.outoff.toNat + reservedLength snap.ops.inlen.toNat
            then Memory.read t.buf a = Config.freeByte (s.draws + (a - snap.ops.outoff.toNat))
            else Memory.read t.buf a = Memory.read s.buf a) ∧
        (decode snap.cmd = .command .zeroize → t.draws = s.draws + s.bufSize ∧ ∀ a,
            if a < s.bufSize then Memory.read t.buf a = Config.freeByte (s.draws + a)
            else Memory.read t.buf a = Memory.read s.buf a) ∧
        ((decode snap.cmd = .command .nop ∨ (∃ why, decode snap.cmd = .illegal why) ∨
          (decode snap.cmd = .command .encrypt ∧ ¬(snap.ops.keylen.toNat = 64 ∧
            RegionsAccepted s.bufSize (blobLength snap.ops.inlen.toNat) snap.ops)) ∨
          (decode snap.cmd = .command .decrypt ∧ ¬(snap.ops.keylen.toNat = 64 ∧
            RegionsAccepted s.bufSize (reservedLength snap.ops.inlen.toNat) snap.ops))) →
          ∀ a, Memory.read t.buf a = Memory.read s.buf a)

/-- R62: after power-on every byte of the buffer holds its byte of BUF_INIT, for every BUF_INIT (log 5). -/
def Obligations.PowerOnGivesEveryBufInit : Prop :=
  ∀ (s : State) (bufInit : Bytes) (rest : List Input), s.inputs = .powerOn bufInit :: rest →
    bufInit.length = s.bufSize →
    ∃ t, step s = .next t ∧ Memory.readBytes t.buf 0 s.bufSize = bufInit

/-- R281: a reset while BUSY = 1, warm or power-on (R280), aborts the command; no completion follows and no answer is
taken for it. -/
def Obligations.ResetAbortsTheCommand : Prop :=
  ∀ (s : State) (snap : Snapshot) (e : Input) (rest : List Input), s.phase = .busy snap →
    s.inputs = e :: rest → (e = .assertReset ∨ ∃ bufInit, e = .powerOn bufInit) →
    ∃ t, step s = .next t ∧ t.phase = .idle ∧ t.result = .none ∧ t.outlen = 0 ∧ t.done = false ∧
      irq t = false ∧ t.entReq = false ∧ sequencerTurn t = .next t ∧ ∀ d, entropyAnswer d t = .next t

/-- R280: while `rst_n` is held the block answers reads with 0, ignores writes and sets no flag, until the release. -/
def Obligations.HeldResetAnswersZero : Prop :=
  ∀ (s : State) (rest : List Input), s.rstHeld = true →
    (∀ off size, s.inputs = .hostRead off size :: rest →
      step s = .next { s with inputs := rest, rdata := some 0 }) ∧
    (∀ off size v, s.inputs = .hostWrite off size v :: rest →
      step s = .next { s with inputs := rest, rdata := none }) ∧
    (s.inputs = .releaseReset :: rest → step s = .next { s with inputs := rest, rstHeld := false })

/-- R284: an entropy answer is ignored while no request is outstanding; it is taken only by an ENCRYPT that waits for it,
and never stored for later. -/
def Obligations.EntropyAnswerNeedsARequest : Prop :=
  ∀ (s : State) (d : EntropyWord) (rest : List Input), s.inputs = .entropy d :: rest →
    (s.entReq = false → step s = .next { s with inputs := rest }) ∧
    (s.phase = .idle → step s = .next { s with inputs := rest }) ∧
    (∀ t, Consistent s → step s = .next t → t ≠ { s with inputs := rest } →
      s.entReq = true ∧ ∃ snap, s.phase = .busy snap ∧ AwaitsEntropy s snap) ∧
    ∀ t, s.entData = none → step s = .next t → t.entData = none

/-! ## The host port (spec 20, 10) -/

/-- R76: a narrow or misaligned access is refused, whatever the offset and the phase. -/
def Obligations.IllegalAccessIsRefused : Prop :=
  ∀ (s : State) (off : Offset) (size : AccessSize) (v : Word) (rest : List Input), s.rstHeld = false →
    (size ≠ .four ∨ off.toNat % 4 ≠ 0) →
    (s.inputs = .hostRead off size :: rest →
      step s = .next { s with inputs := rest, accerr := true, rdata := some 0 }) ∧
    (s.inputs = .hostWrite off size v :: rest →
      step s = .next { s with inputs := rest, accerr := true, rdata := none })

/-- R78, R122, R288: while BUSY = 1 a legal access to a busy-locked target is refused; a CMD write is lost. -/
def Obligations.BusyLockedAccessIsRefused : Prop :=
  ∀ (s : State) (snap : Snapshot) (off : Offset) (v : Word) (rest : List Input), s.rstHeld = false →
    s.phase = .busy snap → off.toNat % 4 = 0 → LockedOffset s.bufSize off.toNat →
    (s.inputs = .hostRead off .four :: rest →
      step s = .next { s with inputs := rest, accerr := true, rdata := some 0 }) ∧
    (s.inputs = .hostWrite off .four v :: rest →
      step s = .next { s with inputs := rest, accerr := true, rdata := none })

/-- R78: a legal access to a busy-open target does the same while BUSY = 1 as while BUSY = 0; only the BUSY bit a
STATUS read shows differs. -/
def Obligations.BusyOpenAccessIgnoresThePhase : Prop :=
  ∀ (s : State) (snap : Snapshot) (off : Offset) (v : Word) (rest : List Input), s.rstHeld = false →
    s.phase = .idle → off.toNat % 4 = 0 → ¬LockedOffset s.bufSize off.toNat →
    (s.inputs = .hostRead off .four :: rest → ∃ t u w,
      step s = .next t ∧ step { s with phase := .busy snap } = .next u ∧
      t = { s with inputs := rest, rdata := some w } ∧
      u = { t with phase := .busy snap, rdata := some (if off.toNat = 0x10 then w ||| 1 else w) }) ∧
    (s.inputs = .hostWrite off .four v :: rest → ∃ t,
      step s = .next t ∧ t.phase = .idle ∧
      step { s with phase := .busy snap } = .next { t with phase := .busy snap })

/-- R74, R53: reserved and unmapped offsets read 0 and ignore writes in either phase, without an error. -/
def Obligations.UnmappedOffsetsReadZero : Prop :=
  ∀ (s : State) (off : Offset) (v : Word) (rest : List Input), s.rstHeld = false → off.toNat % 4 = 0 →
    (off.toNat = 0x38 ∨ off.toNat = 0x3C ∨ (0x90 ≤ off.toNat ∧ off.toNat ≤ 0x7FFF) ∨
      0x8000 + s.bufSize ≤ off.toNat) →
    (s.inputs = .hostRead off .four :: rest →
      step s = .next { s with inputs := rest, rdata := some 0 }) ∧
    (s.inputs = .hostWrite off .four v :: rest →
      step s = .next { s with inputs := rest, rdata := none })

/-- R73: a word of the buffer window is four bytes of the buffer in little-endian lanes; it is busy-locked. -/
def Obligations.BufferWindowHoldsLanes : Prop :=
  ∀ (s : State) (off : Offset) (k : Nat) (v : Word) (rest : List Input), s.rstHeld = false →
    off.toNat = 0x8000 + k → k % 4 = 0 → k + 4 ≤ s.bufSize →
    (s.phase = .idle → s.inputs = .hostRead off .four :: rest → ∃ w,
      step s = .next { s with inputs := rest, rdata := some w } ∧
      ∀ j, j < 4 → lane w j = Memory.read s.buf (k + j)) ∧
    (s.phase = .idle → s.inputs = .hostWrite off .four v :: rest → ∃ t,
      step s = .next t ∧ t = { s with inputs := rest, rdata := none, buf := t.buf } ∧
      (∀ j, j < 4 → Memory.read t.buf (k + j) = lane v j) ∧
      ∀ a, ¬(k ≤ a ∧ a < k + 4) → Memory.read t.buf a = Memory.read s.buf a) ∧
    (isBusy s = true → s.inputs = .hostRead off .four :: rest →
      step s = .next { s with inputs := rest, accerr := true, rdata := some 0 }) ∧
    (isBusy s = true → s.inputs = .hostWrite off .four v :: rest →
      step s = .next { s with inputs := rest, accerr := true, rdata := none })

/-- R45 to R50, R52: KEYLEN, the offset and length registers and IV0 to IV3 hold every value written to them; a write
changes what no other offset reads, nor the key file. -/
def Obligations.OperandRegisterHoldsWhatIsWritten : Prop :=
  ∀ (s : State) (off : Offset) (v : Word) (rest : List Input), s.rstHeld = false → s.phase = .idle →
    off.toNat % 4 = 0 → ((0x20 ≤ off.toNat ∧ off.toNat ≤ 0x34) ∨ (0x80 ≤ off.toNat ∧ off.toNat < 0x90)) →
    s.inputs = .hostWrite off .four v :: rest →
    ∃ t, step s = .next t ∧ (hostRead off .four t).rdata = some v ∧
      (∀ off' : Offset, off'.toNat % 4 = 0 → off' ≠ off →
        (hostRead off' .four t).rdata = (hostRead off' .four s).rdata) ∧
      t = { s with inputs := rest, rdata := none, ops := t.ops } ∧ t.ops.key = s.ops.key

/-- R51, R80, R103: a write of KEYi stores four key bytes in little-endian lanes and changes nothing else; a read of
KEYi answers 0. -/
def Obligations.KeyRegisterWriteStoresFourBytes : Prop :=
  ∀ (s : State) (i : Fin 16) (off : Offset) (v : Word) (rest : List Input), s.rstHeld = false →
    s.phase = .idle → off.toNat = 0x40 + 4 * i.val → s.inputs = .hostWrite off .four v :: rest →
    ∃ t, step s = .next t ∧
      t = { s with inputs := rest, rdata := none, ops := { s.ops with key := t.ops.key } } ∧
      (∀ j, j < 4 → (fileBytes t.ops.key).getD (4 * i.val + j) 0 = lane v j) ∧
      (∀ b, ¬(4 * i.val ≤ b ∧ b < 4 * i.val + 4) →
        (fileBytes t.ops.key).getD b 0 = (fileBytes s.ops.key).getD b 0) ∧
      (hostRead off .four t).rdata = some 0

/-- R36: a write of CTRL stores bits [1:0], in either phase; the snapshot keeps its own IVSRC. -/
def Obligations.CtrlWriteStoresTwoBits : Prop :=
  ∀ (s : State) (v : Word) (rest : List Input), s.rstHeld = false →
    s.inputs = .hostWrite 0x00C .four v :: rest →
    ∃ t, step s = .next t ∧
      t = { s with inputs := rest, rdata := none, ivsrc := v.getLsbD 0, ie := v.getLsbD 1 } ∧
      (hostRead 0x00C .four t).rdata = some (v &&& 0x00000003) ∧ irq t = (s.done && v.getLsbD 1)

/-- R37: STATUS shows BUSY, DONE, ACCERR and IRQPEND in bits 0 to 3; a write clears DONE by bit 1 and ACCERR by bit 2
and does nothing else. -/
def Obligations.StatusWriteClearsAndNeverSets : Prop :=
  statusWord State.reset = 0 ∧ ∀ (s : State) (v : Word) (rest : List Input), s.rstHeld = false →
    (s.inputs = .hostWrite 0x010 .four v :: rest → step s = .next { s with
      inputs := rest, rdata := none
      done := if v.getLsbD 1 then false else s.done
      accerr := if v.getLsbD 2 then false else s.accerr }) ∧
    (s.inputs = .hostRead 0x010 .four :: rest → ∃ w, step s = .next { s with inputs := rest, rdata := some w } ∧
      w.getLsbD 0 = isBusy s ∧ w.getLsbD 1 = s.done ∧ w.getLsbD 2 = s.accerr ∧ w.getLsbD 3 = (s.done && s.ie) ∧
      ∀ i, 4 ≤ i → w.getLsbD i = false)

/-- R41: IRQPEND and the `irq` output are `STATUS.DONE and CTRL.IE` and nothing else of the state. -/
def Obligations.IrqIsDoneAndEnabled : Prop :=
  (∀ s : State, irq s = (s.done && s.ie) ∧ (statusWord s).getLsbD 3 = irq s) ∧
  ∀ s t : State, s.done = t.done → s.ie = t.ie → irq s = irq t

/-- R33 to R35: ID, VERSION and PARAM answer their constants in either phase and ignore writes without an error. -/
def Obligations.IdentityRegistersAreConstant : Prop :=
  ∀ (s : State) (off : Offset) (v : Word) (rest : List Input), s.rstHeld = false →
    (off = 0x000 ∨ off = 0x004 ∨ off = 0x008) →
    (s.inputs = .hostRead off .four :: rest → step s = .next { s with
      inputs := rest
      rdata := some (if off = 0x000 then 0xAE5CB512 else if off = 0x004 then 0x00010000
        else BitVec.ofNat 32 s.bufSize) }) ∧
    (s.inputs = .hostWrite off .four v :: rest → step s = .next { s with inputs := rest, rdata := none })

/-- R42, R43, R256: RESULT reads its code in bits [3:0], one of 0 to 5, and OUTLEN its value, in either phase; both
ignore writes. -/
def Obligations.RecordRegistersAreReadOnly : Prop :=
  ∀ (s : State) (v : Word) (rest : List Input), s.rstHeld = false →
    (s.inputs = .hostRead 0x014 .four :: rest → ∃ w : Word,
      step s = .next { s with inputs := rest, rdata := some w } ∧ w.toNat ≤ 5 ∧
      (w.toNat = 0 ↔ s.result = .none) ∧ (w.toNat = 1 ↔ s.result = .ok) ∧
      (w.toNat = 2 ↔ s.result = .invalidCryptoKey) ∧ (w.toNat = 3 ↔ s.result = .invalidCiphertext) ∧
      (w.toNat = 4 ↔ s.result = .illegalCommand) ∧ (w.toNat = 5 ↔ s.result = .badRegion)) ∧
    (s.inputs = .hostRead 0x018 .four :: rest →
      step s = .next { s with inputs := rest, rdata := some s.outlen }) ∧
    ∀ off : Offset, (off = 0x014 ∨ off = 0x018) → s.inputs = .hostWrite off .four v :: rest →
      step s = .next { s with inputs := rest, rdata := none }

/-- R77: no read changes any state but ACCERR of a refused read; the answer on the port is not state of the block. -/
def Obligations.ReadsChangeNothing : Prop :=
  ∀ (s : State) (off : Offset) (size : AccessSize) (rest : List Input), s.rstHeld = false →
    s.inputs = .hostRead off size :: rest →
    (¬RefusedAccess s off size → ∃ w, step s = .next { s with inputs := rest, rdata := some w }) ∧
    (RefusedAccess s off size → step s = .next { s with inputs := rest, rdata := some 0, accerr := true })

/-- R121: a legal write of CMD while BUSY = 0 takes the snapshot and starts the command, whatever its value; ACCERR and
everything else stays. -/
def Obligations.AcceptanceTakesTheSnapshot : Prop :=
  ∀ (s : State) (v : Word) (rest : List Input), s.rstHeld = false → s.phase = .idle →
    s.inputs = .hostWrite 0x01C .four v :: rest →
    step s = .next { s with
      inputs := rest, rdata := none
      phase := .busy { cmd := v, ivsrc := s.ivsrc, ops := s.ops }
      done := false, result := .none, outlen := 0 }

/-- R58, R261, R287: no host access changes the snapshot, the operands, the buffer, the record or the request of a
running command. -/
def Obligations.HostCannotDisturbARunningCommand : Prop :=
  ∀ (s t : State) (snap : Snapshot) (off : Offset) (size : AccessSize), s.phase = .busy snap →
    nextAccesses s off size → step s = .next t →
    t.phase = .busy snap ∧ t.ops = s.ops ∧ t.buf = s.buf ∧ t.result = s.result ∧ t.outlen = s.outlen ∧
    t.entReq = s.entReq ∧ t.entData = s.entData ∧ t.draws = s.draws

/-- R51, R272: no host read depends on key material, in the key file or in the snapshot. -/
def Obligations.NoHostReadDependsOnTheKey : Prop :=
  ∀ (s : State) (k : Vector Word 16) (ph : Phase) (off : Offset) (size : AccessSize) (rest : List Input),
    isBusy { s with phase := ph } = isBusy s → s.inputs = .hostRead off size :: rest →
    ∃ t u, step s = .next t ∧ step { s with phase := ph, ops := { s.ops with key := k } } = .next u ∧
      u.rdata = t.rdata ∧ u = { t with phase := ph, ops := { s.ops with key := k } }

/-! ## The commands (spec 40) -/

/-- R132: NOP completes with OK and an output length of 0, whatever the operand registers hold. -/
def Obligations.NopCompletesOk : Prop :=
  ∀ (s : State) (snap : Snapshot), s.phase = .busy snap →
    exec .nop s = .next { s with
      result := .ok, outlen := 0, phase := .idle, done := true, entReq := false, entData := none }

/-- R135: ZEROIZE completes with OK, clears every byte of the buffer, the key and IV files and the operand registers,
and keeps everything else; ENCRYPT and DECRYPT then fail with InvalidCryptoKey. -/
def Obligations.ZeroizeClearsBufferKeyAndOperands : Prop :=
  ∀ (s : State) (snap : Snapshot), s.phase = .busy snap →
    ∃ t, exec .zeroize s = .next t ∧
      t = { s with
        buf := t.buf, ops := t.ops, result := .ok, outlen := 0, phase := .idle, done := true
        entReq := false, entData := none } ∧
      (∀ a, a < s.bufSize → Memory.read t.buf a = 0) ∧
      (∀ a, s.bufSize ≤ a → Memory.read t.buf a = Memory.read s.buf a) ∧
      (∀ i : Fin 16, t.ops.key[i] = 0) ∧ (∀ i : Fin 4, t.ops.iv[i] = 0) ∧
      t.ops.keylen = 0 ∧ t.ops.aadoff = 0 ∧ t.ops.aadlen = 0 ∧ t.ops.inoff = 0 ∧ t.ops.inlen = 0 ∧
      t.ops.outoff = 0 ∧
      ∀ i, (i = .encrypt ∨ i = .decrypt) →
        ∃ u, exec i (accept (encode i) t) = .next u ∧ u.result = .invalidCryptoKey ∧ u.phase = .idle

/-- R136: the completion of a reserved word reports ILLEGAL_COMMAND and changes nothing else; `0x00000011` is one. -/
def Obligations.ReservedWordReportsIllegalCommand : Prop :=
  (∀ (s : State) (snap : Snapshot) (why : IllegalReason) (rest : List Input), s.phase = .busy snap →
    decode snap.cmd = .illegal why → s.inputs = .sequencer :: rest →
    step s = .next { s with
      inputs := rest, result := .illegalCommand, outlen := 0, phase := .idle, done := true
      entReq := false, entData := none }) ∧
  decode 0x00000011 = .illegal .reservedBits

/-- R129: ENCRYPT and DECRYPT with KEYLEN other than 64 fail with InvalidCryptoKey before anything else, and the key
bytes are not looked at. -/
def Obligations.WrongKeyLengthFailsFirst : Prop :=
  ∀ (s : State) (snap : Snapshot) (i : Instr), s.phase = .busy snap → (i = .encrypt ∨ i = .decrypt) →
    (snap.ops.keylen.toNat ≠ 64 → exec i s = .next { s with
      result := .invalidCryptoKey, outlen := 0, phase := .idle, done := true
      entReq := false, entData := none }) ∧
    (snap.ops.keylen.toNat = 64 → ∀ t, exec i s = .next t → t.phase = .idle →
      t.result ≠ .invalidCryptoKey)

/-- R255: with KEYLEN = 64, a region that does not fit or an output that overlaps an input gives BadRegion, with no
buffer write and no entropy request. -/
def Obligations.BadRegionFailsBeforeAnyRead : Prop :=
  ∀ (s : State) (snap : Snapshot), s.phase = .busy snap → snap.ops.keylen.toNat = 64 →
    (¬RegionsAccepted s.bufSize (blobLength snap.ops.inlen.toNat) snap.ops →
      exec .encrypt s = .next { s with
        result := .badRegion, outlen := 0, phase := .idle, done := true
        entReq := false, entData := none }) ∧
    (¬RegionsAccepted s.bufSize (reservedLength snap.ops.inlen.toNat) snap.ops →
      exec .decrypt s = .next { s with
        result := .badRegion, outlen := 0, phase := .idle, done := true
        entReq := false, entData := none })

/-- R133: ENCRYPT with its checks passed and an IV, from the IV registers or from the entropy port, writes the blob
`IV || E || T` at OUTOFF and completes with OK. -/
def Obligations.EncryptWritesTheBlob : Prop :=
  ∀ (s : State) (snap : Snapshot) (iv : Bytes), s.phase = .busy snap → snap.ops.keylen.toNat = 64 →
    RegionsAccepted s.bufSize (blobLength snap.ops.inlen.toNat) snap.ops →
    ((snap.ivsrc = true ∧ iv = fileBytes snap.ops.iv) ∨
      (snap.ivsrc = false ∧ s.entReq = true ∧ ∃ d, s.entData = some d ∧ iv = lanes 16 d)) →
    ∃ t e, exec .encrypt s = .next t ∧
      e = cbcEnc (slice (fileBytes snap.ops.key) 32 64) iv
        (pkcs7Pad (Memory.readBytes s.buf snap.ops.inoff.toNat snap.ops.inlen.toNat)) ∧
      t = { s with
        buf := t.buf, result := .ok, outlen := BitVec.ofNat 32 (blobLength snap.ops.inlen.toNat)
        phase := .idle, done := true, entReq := false, entData := none } ∧
      Memory.readBytes t.buf snap.ops.outoff.toNat (blobLength snap.ops.inlen.toNat) =
        iv ++ e ++ trunc32 (hmac512 (slice (fileBytes snap.ops.key) 0 32)
          (Memory.readBytes s.buf snap.ops.aadoff.toNat snap.ops.aadlen.toNat ++ iv ++ e ++
            be64 (8 * snap.ops.aadlen.toNat))) ∧
      ∀ a, ¬(snap.ops.outoff.toNat ≤ a ∧ a < snap.ops.outoff.toNat + blobLength snap.ops.inlen.toNat) →
        Memory.read t.buf a = Memory.read s.buf a

/-- R131: an ENCRYPT with the entropy port as IV source and no answer raises ENTREQ and stays BUSY, with nothing
written. -/
def Obligations.EncryptAsksForEntropyAndWaits : Prop :=
  ∀ (s : State) (snap : Snapshot), s.phase = .busy snap → snap.ivsrc = false →
    snap.ops.keylen.toNat = 64 →
    RegionsAccepted s.bufSize (blobLength snap.ops.inlen.toNat) snap.ops →
    (s.entReq = false ∨ s.entData = none) →
    exec .encrypt s = .next { s with entReq := true, entData := none }

/-- R294, R131: while the entropy source does not answer, the waiting ENCRYPT stays BUSY with ENTREQ = 1 for any number
of steps (that an empty list of inputs gives the sequencer its turns is log 1). -/
def Obligations.UnansweredEncryptStaysBusyForever : Prop :=
  ∀ (s : State) (snap : Snapshot) (n : Nat), s.phase = .busy snap → AwaitsEntropy s snap →
    s.inputs = [] → s.entData = none →
    Host.Core.run Sys2Proof.core (n + 1) s = .next { s with entReq := true }

/-- R131, R133: the answer to the request completes the ENCRYPT, with the answer's bytes as its IV. -/
def Obligations.EntropyAnswerCompletesTheEncrypt : Prop :=
  ∀ (s : State) (snap : Snapshot) (d : EntropyWord) (rest : List Input), s.phase = .busy snap →
    AwaitsEntropy s snap → s.entReq = true → s.inputs = .entropy d :: rest →
    ∃ t, step s = .next t ∧
      t = { s with
        inputs := rest, buf := t.buf, result := .ok
        outlen := BitVec.ofNat 32 (blobLength snap.ops.inlen.toNat)
        phase := .idle, done := true, entReq := false, entData := none } ∧
      (∀ j, j < 16 → Memory.read t.buf (snap.ops.outoff.toNat + j) = lane d j) ∧
      Memory.readBytes t.buf snap.ops.outoff.toNat (blobLength snap.ops.inlen.toNat) =
        aeadEncrypt (fileBytes snap.ops.key) (lanes 16 d)
          (Memory.readBytes s.buf snap.ops.inoff.toNat snap.ops.inlen.toNat)
          (Memory.readBytes s.buf snap.ops.aadoff.toNat snap.ops.aadlen.toNat) ∧
      ∀ a, ¬(snap.ops.outoff.toNat ≤ a ∧ a < snap.ops.outoff.toNat + blobLength snap.ops.inlen.toNat) →
        Memory.read t.buf a = Memory.read s.buf a

/-- R139: a blob that is too short, has a body of no whole number of blocks, a wrong tag or a bad padding gives one and
the same failure, with the reserved region zero-filled. -/
def Obligations.EveryIntegrityFailureLooksTheSame : Prop :=
  ∀ (s : State) (snap : Snapshot) (c a : Bytes), s.phase = .busy snap → snap.ops.keylen.toNat = 64 →
    RegionsAccepted s.bufSize (reservedLength snap.ops.inlen.toNat) snap.ops →
    c = Memory.readBytes s.buf snap.ops.inoff.toNat snap.ops.inlen.toNat →
    a = Memory.readBytes s.buf snap.ops.aadoff.toNat snap.ops.aadlen.toNat →
    (c.length < 64 ∨ (c.length - 48) % 16 ≠ 0 ∨
      slice c (c.length - 32) c.length ≠
        tag (slice (fileBytes snap.ops.key) 0 32) a (slice c 0 16) (slice c 16 (c.length - 32)) ∨
      pkcs7Unpad (cbcDec (slice (fileBytes snap.ops.key) 32 64) (slice c 0 16)
        (slice c 16 (c.length - 32))) = none) →
    ∃ t, exec .decrypt s = .next t ∧
      t = { s with
        buf := t.buf, result := .invalidCiphertext, outlen := 0
        phase := .idle, done := true, entReq := false, entData := none } ∧
      (∀ i, i < reservedLength snap.ops.inlen.toNat →
        Memory.read t.buf (snap.ops.outoff.toNat + i) = 0) ∧
      ∀ x, ¬(snap.ops.outoff.toNat ≤ x ∧
          x < snap.ops.outoff.toNat + reservedLength snap.ops.inlen.toNat) →
        Memory.read t.buf x = Memory.read s.buf x

/-- R134: DECRYPT of a well-structured blob with the right tag and a good padding writes the plaintext and then zeros
to the end of the reserved region and completes with OK. -/
def Obligations.DecryptWritesThePlaintext : Prop :=
  ∀ (s : State) (snap : Snapshot) (c a pt : Bytes), s.phase = .busy snap → snap.ops.keylen.toNat = 64 →
    RegionsAccepted s.bufSize (reservedLength snap.ops.inlen.toNat) snap.ops →
    c = Memory.readBytes s.buf snap.ops.inoff.toNat snap.ops.inlen.toNat →
    a = Memory.readBytes s.buf snap.ops.aadoff.toNat snap.ops.aadlen.toNat →
    64 ≤ c.length → (c.length - 48) % 16 = 0 →
    slice c (c.length - 32) c.length =
      tag (slice (fileBytes snap.ops.key) 0 32) a (slice c 0 16) (slice c 16 (c.length - 32)) →
    pkcs7Unpad (cbcDec (slice (fileBytes snap.ops.key) 32 64) (slice c 0 16)
      (slice c 16 (c.length - 32))) = some pt →
    pt.length + 1 ≤ reservedLength c.length ∧
    ∃ t, exec .decrypt s = .next t ∧
      t = { s with
        buf := t.buf, result := .ok, outlen := BitVec.ofNat 32 pt.length
        phase := .idle, done := true, entReq := false, entData := none } ∧
      Memory.readBytes t.buf snap.ops.outoff.toNat (reservedLength c.length) =
        pt ++ zeros (reservedLength c.length - pt.length) ∧
      ∀ x, ¬(snap.ops.outoff.toNat ≤ x ∧ x < snap.ops.outoff.toNat + reservedLength c.length) →
        Memory.read t.buf x = Memory.read s.buf x

/-- R137: whatever its end, ENCRYPT writes nothing but its output region and RESULT, OUTLEN, STATUS and ENTREQ; never
the AAD or the input region. -/
def Obligations.EncryptWritesNothingElse : Prop :=
  ∀ (s t : State) (snap : Snapshot), s.phase = .busy snap → exec .encrypt s = .next t →
    t = { s with
      buf := t.buf, result := t.result, outlen := t.outlen, phase := t.phase, done := t.done
      entReq := t.entReq, entData := none } ∧
    (∀ a, ¬(snap.ops.outoff.toNat ≤ a ∧ a < snap.ops.outoff.toNat + blobLength snap.ops.inlen.toNat) →
      Memory.read t.buf a = Memory.read s.buf a) ∧
    Memory.readBytes t.buf snap.ops.aadoff.toNat snap.ops.aadlen.toNat =
      Memory.readBytes s.buf snap.ops.aadoff.toNat snap.ops.aadlen.toNat ∧
    Memory.readBytes t.buf snap.ops.inoff.toNat snap.ops.inlen.toNat =
      Memory.readBytes s.buf snap.ops.inoff.toNat snap.ops.inlen.toNat

/-- R140: after a failed DECRYPT the reserved region is all zero or, where no integrity check was reached, the buffer is
as it was; after a success it holds the plaintext followed by zeros; nothing else is written. -/
def Obligations.DecryptLeavesNoPartialPlaintext : Prop :=
  ∀ (s t : State) (snap : Snapshot), s.phase = .busy snap → exec .decrypt s = .next t →
    t.phase = .idle ∧ t.ops = s.ops ∧ t.accerr = s.accerr ∧ t.ivsrc = s.ivsrc ∧ t.ie = s.ie ∧
    (t.result = .invalidCiphertext → ∀ i, i < reservedLength snap.ops.inlen.toNat →
      Memory.read t.buf (snap.ops.outoff.toNat + i) = 0) ∧
    (t.result = .ok → ∃ pt, aeadDecrypt (fileBytes snap.ops.key)
        (Memory.readBytes s.buf snap.ops.inoff.toNat snap.ops.inlen.toNat)
        (Memory.readBytes s.buf snap.ops.aadoff.toNat snap.ops.aadlen.toNat) = some pt ∧
      Memory.readBytes t.buf snap.ops.outoff.toNat (reservedLength snap.ops.inlen.toNat) =
        pt ++ zeros (reservedLength snap.ops.inlen.toNat - pt.length)) ∧
    (t.result = .invalidCryptoKey ∨ t.result = .badRegion → t.buf = s.buf) ∧
    ∀ x, ¬(snap.ops.outoff.toNat ≤ x ∧
        x < snap.ops.outoff.toNat + reservedLength snap.ops.inlen.toNat) →
      Memory.read t.buf x = Memory.read s.buf x

/-- R143: the output length of a successful ENCRYPT of `P` bytes and of a successful DECRYPT of `N` bytes, and of the
DECRYPT of a blob ENCRYPT made. -/
def Obligations.OutputLengthsAreAsStated : Prop :=
  (∀ (s t : State) (snap : Snapshot), s.phase = .busy snap → bufSizeWf s.bufSize = true →
    exec .encrypt s = .next t → t.phase = .idle → t.result = .ok →
    t.outlen.toNat = 16 + 16 * (snap.ops.inlen.toNat / 16 + 1) + 32 ∧
    t.outlen.toNat = 64 + 16 * (snap.ops.inlen.toNat / 16)) ∧
  (∀ (s t : State) (snap : Snapshot), s.phase = .busy snap → exec .decrypt s = .next t → t.result = .ok →
    64 ≤ snap.ops.inlen.toNat ∧ (snap.ops.inlen.toNat - 48) % 16 = 0 ∧
    snap.ops.inlen.toNat - 64 ≤ t.outlen.toNat ∧ t.outlen.toNat ≤ snap.ops.inlen.toNat - 49) ∧
  ∀ k iv pt a out : Bytes, iv.length = 16 → aeadDecrypt k (aeadEncrypt k iv pt a) a = some out →
    out.length = pt.length

/-- R141 on byte strings: `decrypt(key, encrypt(key, plaintext, aad), aad) = plaintext`, for every key, 16-byte IV,
plaintext and associated data. -/
def Obligations.DecryptInvertsEncrypt : Prop :=
  ∀ k iv pt a : Bytes, iv.length = 16 → aeadDecrypt k (aeadEncrypt k iv pt a) a = some pt

/-- R141 on the block: a DECRYPT of the blob an ENCRYPT wrote, with the same key file and the same AAD bytes, completes
with OK and gives back the plaintext. -/
def Obligations.CommandRoundTrip : Prop :=
  ∀ (s₁ t₁ s₂ : State) (snap₁ snap₂ : Snapshot), bufSizeWf s₁.bufSize = true →
    s₁.phase = .busy snap₁ → exec .encrypt s₁ = .next t₁ → t₁.phase = .idle → t₁.result = .ok →
    s₂.phase = .busy snap₂ → snap₂.ops.keylen.toNat = 64 → snap₂.ops.key = snap₁.ops.key →
    snap₂.ops.inoff = snap₁.ops.outoff → snap₂.ops.inlen = t₁.outlen →
    Memory.readBytes s₂.buf snap₂.ops.inoff.toNat snap₂.ops.inlen.toNat =
      Memory.readBytes t₁.buf snap₁.ops.outoff.toNat t₁.outlen.toNat →
    Memory.readBytes s₂.buf snap₂.ops.aadoff.toNat snap₂.ops.aadlen.toNat =
      Memory.readBytes s₁.buf snap₁.ops.aadoff.toNat snap₁.ops.aadlen.toNat →
    RegionsAccepted s₂.bufSize (reservedLength snap₂.ops.inlen.toNat) snap₂.ops →
    ∃ t₂, exec .decrypt s₂ = .next t₂ ∧ t₂.phase = .idle ∧ t₂.result = .ok ∧
      t₂.outlen = snap₁.ops.inlen ∧
      Memory.readBytes t₂.buf snap₂.ops.outoff.toNat snap₁.ops.inlen.toNat =
        Memory.readBytes s₁.buf snap₁.ops.inoff.toNat snap₁.ops.inlen.toNat

/-- R142: the blob is a function of the key file, the IV, the plaintext bytes and the AAD bytes alone, whichever IV
source gives the IV. -/
def Obligations.BlobIsDeterminedByItsInputs : Prop :=
  ∀ (s₁ s₂ t₁ t₂ : State) (snap₁ snap₂ : Snapshot) (iv : Bytes),
    s₁.phase = .busy snap₁ → s₂.phase = .busy snap₂ →
    obtainIv snap₁ s₁ = some iv → obtainIv snap₂ s₂ = some iv → snap₁.ops.key = snap₂.ops.key →
    Memory.readBytes s₁.buf snap₁.ops.inoff.toNat snap₁.ops.inlen.toNat =
      Memory.readBytes s₂.buf snap₂.ops.inoff.toNat snap₂.ops.inlen.toNat →
    Memory.readBytes s₁.buf snap₁.ops.aadoff.toNat snap₁.ops.aadlen.toNat =
      Memory.readBytes s₂.buf snap₂.ops.aadoff.toNat snap₂.ops.aadlen.toNat →
    exec .encrypt s₁ = .next t₁ → exec .encrypt s₂ = .next t₂ → t₁.result = .ok → t₂.result = .ok →
    t₁.outlen = t₂.outlen ∧
    Memory.readBytes t₁.buf snap₁.ops.outoff.toNat (blobLength snap₁.ops.inlen.toNat) =
      Memory.readBytes t₂.buf snap₂.ops.outoff.toNat (blobLength snap₂.ops.inlen.toNat)

/-- R144, its first sentence: a change of the tag part alone of a blob that DECRYPT would accept makes DECRYPT fail. -/
def Obligations.ChangedTagIsRejected : Prop :=
  ∀ k c c' a pt : Bytes, aeadDecrypt k c a = some pt → c'.length = c.length →
    slice c' 0 (c.length - 32) = slice c 0 (c.length - 32) → c' ≠ c → aeadDecrypt k c' a = none

/-! ## Rules of the whole block -/

/-- R40: ACCERR is set by a refused host access and by nothing else, and cleared by a STATUS write with bit 2 set, by a
reset and by nothing else; no command reads or changes it, and it raises no interrupt. -/
def Obligations.AccerrIsSticky : Prop :=
  ∀ s t : State, step s = .next t →
    (s.accerr = true → t.accerr = false →
      nextIsReset s = true ∨ ∃ v, nextWrites s 0x010 v ∧ v.getLsbD 2 = true) ∧
    (s.accerr = false → t.accerr = true →
      s.rstHeld = false ∧ ∃ off size, nextAccesses s off size ∧ RefusedAccess s off size) ∧
    (s.rstHeld = false → ∀ off size, nextAccesses s off size → RefusedAccess s off size → t.accerr = true) ∧
    (nextIsReset s = true → t.accerr = false) ∧
    (s.rstHeld = false → ∀ v, nextWrites s 0x010 v → v.getLsbD 2 = true → t.accerr = false) ∧
    (∀ i b u, exec i s = .next u → u.accerr = s.accerr ∧
      exec i { s with accerr := b } = .next { u with accerr := b }) ∧
    ∀ b, irq { s with accerr := b } = irq s

/-- R39: DONE is set by every completion and by nothing else, and cleared by an acceptance, by a STATUS write with bit 1
set, by a reset and by nothing else. -/
def Obligations.DoneMarksCompletions : Prop :=
  ∀ s t : State, step s = .next t →
    (isBusy s = true → isBusy t = false → nextIsReset s = false → t.done = true ∧ irq t = s.ie) ∧
    (s.done = false → t.done = true → isBusy s = true ∧ isBusy t = false ∧ nextIsReset s = false) ∧
    (s.done = true → t.done = false → nextIsReset s = true ∨ ∃ v,
      (nextWrites s 0x010 v ∧ v.getLsbD 1 = true) ∨
      (nextWrites s 0x01C v ∧ isBusy s = false ∧ isBusy t = true)) ∧
    (nextIsReset s = true → t.done = false) ∧
    (s.rstHeld = false → ∀ v, nextWrites s 0x010 v → v.getLsbD 1 = true → t.done = false) ∧
    (s.rstHeld = false → isBusy s = false → ∀ v, nextWrites s 0x01C v → t.done = false)

/-- R31, R38: BUSY rises only at a legal CMD write while BUSY = 0 and falls only at a completion or a reset. -/
def Obligations.BusyLastsFromAcceptanceToCompletion : Prop :=
  ∀ s t : State, step s = .next t →
    (isBusy s = false → isBusy t = true → s.rstHeld = false ∧ ∃ v, nextWrites s 0x01C v) ∧
    (isBusy s = true → isBusy t = false → nextIsReset s = true ∨ (t.done = true ∧ t.result ≠ .none)) ∧
    (∀ snap snap', s.phase = .busy snap → t.phase = .busy snap' → snap' = snap)

/-- R51: the key file changes only at a legal write of a KEY register while BUSY = 0 and `rst_n` is released, at the
completion of a ZEROIZE and at a reset. -/
def Obligations.KeyFileHasThreeWriters : Prop :=
  ∀ s t : State, step s = .next t → t.ops.key ≠ s.ops.key →
    nextIsReset s = true ∨
    (∃ off v, nextWrites s off v ∧ off.toNat % 4 = 0 ∧ s.rstHeld = false ∧ isBusy s = false ∧
      0x40 ≤ off.toNat ∧ off.toNat < 0x80) ∨
    ∃ snap, s.phase = .busy snap ∧ decode snap.cmd = .command .zeroize ∧ isBusy t = false

/-- R123, R294: a command that does not wait for entropy completes at the sequencer's next turn, whatever steps come
after it (that an empty list of inputs gives the sequencer the turn as well is log 1). -/
def Obligations.EnabledCommandCompletes : Prop :=
  ∀ (s : State) (snap : Snapshot) (rest : List Input), s.phase = .busy snap →
    (s.inputs = .sequencer :: rest ∨ (s.inputs = [] ∧ rest = [])) → ¬AwaitsEntropy s snap →
    ∃ t, step s = .next t ∧ t.phase = .idle ∧ t.done = true ∧ t.result ≠ .none ∧ t.inputs = rest

/-! ## The datapath (spec 41 to 43) -/

/-- R186: AES-256 encryption and decryption under one key undo each other on 16-byte blocks, so encryption is a
permutation of them. -/
def Obligations.AesEncryptionIsAPermutation : Prop :=
  ∀ k : Bytes, k.length = 32 →
    (∀ b : Bytes, b.length = 16 → (aesEnc k b).length = 16 ∧ (aesDec k b).length = 16 ∧
      aesDec k (aesEnc k b) = b ∧ aesEnc k (aesDec k b) = b) ∧
    (∀ b b' : Bytes, b.length = 16 → b'.length = 16 → aesEnc k b = aesEnc k b' → b = b') ∧
    ∀ c : Bytes, c.length = 16 → ∃ b, b.length = 16 ∧ aesEnc k b = c

/-- R191, its law: CBC decryption undoes CBC encryption of whole blocks under the same key and IV. -/
def Obligations.CbcDecryptionUndoesEncryption : Prop :=
  ∀ (k iv x : Bytes) (m : Nat), iv.length = 16 → x.length = 16 * m →
    (cbcEnc k iv x).length = 16 * m ∧ cbcDec k iv (cbcEnc k iv x) = x

/-- R192: padding appends `p` bytes of value `p`, `1 <= p <= 16`, up to the next whole block. -/
def Obligations.PaddingFillsTheBlock : Prop :=
  ∀ pt : Bytes, ∃ p, 1 ≤ p ∧ p ≤ 16 ∧ p = 16 - pt.length % 16 ∧
    pkcs7Pad pt = pt ++ rep (BitVec.ofNat 8 p) p ∧
    (pkcs7Pad pt).length = 16 * (pt.length / 16 + 1)

/-- R194: unpadding undoes padding, and so does the padding check of a DECRYPT of what ENCRYPT made. -/
def Obligations.UnpaddingUndoesPadding : Prop :=
  ∀ pt : Bytes, pkcs7Unpad (pkcs7Pad pt) = some pt ∧
    ∀ k iv : Bytes, iv.length = 16 → pkcs7Unpad (cbcDec k iv (cbcEnc k iv (pkcs7Pad pt))) = some pt

/-- R193: on whole blocks, unpadding accepts exactly the padded byte strings; every padding byte counts. -/
def Obligations.UnpaddingAcceptsOnlyPaddings : Prop :=
  ∀ x pt : Bytes, x.length % 16 = 0 → 16 ≤ x.length → (pkcs7Unpad x = some pt ↔ x = pkcs7Pad pt)

/-- R244: the comparator answers true exactly when the 32-byte tags are equal, is symmetric, and answers false for any
change of any one byte. -/
def Obligations.ComparatorIsEquality : Prop :=
  ∀ t t2 : Bytes, t.length = 32 → t2.length = 32 →
    ctEq t t = true ∧ ctEq t t2 = ctEq t2 t ∧
    (ctEq t t2 = true ↔ ∀ i, i < 32 → t.getD i 0 = t2.getD i 0) ∧ (ctEq t t2 = true ↔ t = t2) ∧
    ∀ i b, i < 32 → b ≠ 0 → ctEq t (t.set i (t.getD i 0 ^^^ b)) = false

/-- R225: two different triples of AAD, 16-byte IV and body never have the same transcript, for an AAD whose bit length
the length block holds. -/
def Obligations.TranscriptIsInjective : Prop :=
  ∀ a iv e a' iv' e' : Bytes, iv.length = 16 → iv'.length = 16 → a.length < 2 ^ 61 → a'.length < 2 ^ 61 →
    transcript a iv e = transcript a' iv' e' → a = a' ∧ iv = iv' ∧ e = e'

/-- R213, R216: SHA-512 padding is the message, 0x80, zeros and the 16-byte bit length, in whole 128-byte blocks, as few
as hold them; the digest is 64 bytes and a tag 32. -/
def Obligations.HashPaddingMakesWholeBlocks : Prop :=
  ∀ m : Bytes,
    (pad512 m).take m.length = m ∧ (pad512 m).getD m.length 0 = 0x80 ∧ (pad512 m).length % 128 = 0 ∧
    m.length + 17 ≤ (pad512 m).length ∧ (pad512 m).length < m.length + 17 + 128 ∧
    (∀ i, m.length < i → i < (pad512 m).length - 16 → (pad512 m).getD i 0 = 0) ∧
    (pad512 m).drop ((pad512 m).length - 16) = be128 (8 * m.length) ∧
    (sha512 m).length = 64 ∧ ∀ k a iv e : Bytes, (tag k a iv e).length = 32
end

