-- ==== Sys2Proof/Laws/Aes.lean ====
section
/-!
SUPPORT. AES-256 part by part: each transformation undoes its inverse, so that a block law can be put together from
them.
-/

-- One declaration at a time: the kernel evaluates long tables here, and what waits for it holds a thread each.
set_option Elab.async false

namespace Sys2Proof.Machine

/-! ## The tables -/

theorem invSbox_sbox : ∀ a : Byte, invSbox (sbox a) = a := by decide +kernel

theorem sbox_invSbox : ∀ a : Byte, sbox (invSbox a) = a := by decide +kernel

/-! ## Multiplication is linear in its second factor -/

theorem gmulBits_xor (n : Nat) (a x y : Byte) :
    gmulBits n a (x ^^^ y) = gmulBits n a x ^^^ gmulBits n a y := by
  induction n generalizing a x y with
  | zero => simp [gmulBits]
  | succ n ih =>
    have hs : (x ^^^ y) >>> 1 = (x >>> 1) ^^^ (y >>> 1) := BitVec.ushiftRight_xor_distrib x y 1
    simp only [gmulBits, hs, ih, BitVec.getLsbD_xor]
    cases x.getLsbD 0 <;> cases y.getLsbD 0 <;> simp
    · ac_rfl
    · ac_rfl
    · rw [show (a ^^^ gmulBits n (xtime a) (x >>> 1)) ^^^ (a ^^^ gmulBits n (xtime a) (y >>> 1)) =
        (a ^^^ a) ^^^ (gmulBits n (xtime a) (x >>> 1) ^^^ gmulBits n (xtime a) (y >>> 1)) by ac_rfl]
      simp

theorem gmul_xor (a x y : Byte) : gmul a (x ^^^ y) = gmul a x ^^^ gmul a y := gmulBits_xor 8 a x y

/-- A byte as the sum of its bits. -/
def bitSum (a : Byte) (i : Nat) : Byte := if a.getLsbD i then 1#8 <<< i else 0

theorem eq_sum_of_bits : ∀ a : Byte, a = bitSum a 0 ^^^ bitSum a 1 ^^^ bitSum a 2 ^^^ bitSum a 3 ^^^
    bitSum a 4 ^^^ bitSum a 5 ^^^ bitSum a 6 ^^^ bitSum a 7 := by decide +kernel

/-- Two linear functions that agree on the eight one-bit bytes agree on every byte. -/
theorem linear_ext {f g : Byte → Byte} (hf : ∀ x y, f (x ^^^ y) = f x ^^^ f y)
    (hg : ∀ x y, g (x ^^^ y) = g x ^^^ g y) (h : ∀ i : Fin 8, f (1#8 <<< i.val) = g (1#8 <<< i.val))
    (a : Byte) : f a = g a := by
  have h0 : ∀ {k : Byte → Byte}, (∀ x y, k (x ^^^ y) = k x ^^^ k y) → k 0 = 0 := by
    intro k hk
    have := hk 0 0
    simpa using this
  have hb : ∀ i, i < 8 → f (bitSum a i) = g (bitSum a i) := by
    intro i hi
    unfold bitSum
    split
    · exact h ⟨i, hi⟩
    · rw [h0 hf, h0 hg]
  rw [eq_sum_of_bits a]
  simp only [hf, hg]
  simp only [hb, Nat.reduceLT]

/-- A sum of four double products, as it stands in a product of two matrices. -/
def doubleProduct (n0 m0 n1 m1 n2 m2 n3 m3 a : Byte) : Byte :=
  gmul n0 (gmul m0 a) ^^^ gmul n1 (gmul m1 a) ^^^ gmul n2 (gmul m2 a) ^^^ gmul n3 (gmul m3 a)

theorem doubleProduct_xor (n0 m0 n1 m1 n2 m2 n3 m3 x y : Byte) :
    doubleProduct n0 m0 n1 m1 n2 m2 n3 m3 (x ^^^ y) =
      doubleProduct n0 m0 n1 m1 n2 m2 n3 m3 x ^^^ doubleProduct n0 m0 n1 m1 n2 m2 n3 m3 y := by
  simp only [doubleProduct, gmul_xor]
  ac_rfl

theorem doubleProduct_eq_self {n0 m0 n1 m1 n2 m2 n3 m3 : Byte}
    (h : ∀ i : Fin 8, doubleProduct n0 m0 n1 m1 n2 m2 n3 m3 (1#8 <<< i.val) = 1#8 <<< i.val) (a : Byte) :
    doubleProduct n0 m0 n1 m1 n2 m2 n3 m3 a = a :=
  linear_ext (g := id) (doubleProduct_xor _ _ _ _ _ _ _ _) (fun _ _ => rfl) h a

theorem doubleProduct_eq_zero {n0 m0 n1 m1 n2 m2 n3 m3 : Byte}
    (h : ∀ i : Fin 8, doubleProduct n0 m0 n1 m1 n2 m2 n3 m3 (1#8 <<< i.val) = 0) (a : Byte) :
    doubleProduct n0 m0 n1 m1 n2 m2 n3 m3 a = 0 :=
  linear_ext (g := fun _ => 0) (doubleProduct_xor _ _ _ _ _ _ _ _) (by simp) h a

/-! ## The columns -/

theorem Column.xor_self_right (v w : Column) : (v.xor w).xor w = v := by
  cases v; cases w; simp [Column.xor]

theorem Column.map_map_of_inverse {f g : Byte → Byte} (h : ∀ a, f (g a) = a) (w : Column) :
    (w.map g).map f = w := by
  cases w; simp [Column.map, h]

theorem xor_eq_of_parts {x p q r t a : Byte} (hx : x = p ^^^ q ^^^ r ^^^ t) (hp : p = a) (hq : q = 0)
    (hr : r = 0) (ht : t = 0) : x = a := by simp [hx, hp, hq, hr, ht]

/-- A column times a matrix of the shape of `mulColumn` and then times another is the column, when the four products
of rows and columns say so. -/
theorem mulColumn_mulColumn {n0 n1 n2 n3 m0 m1 m2 m3 : Byte}
    (h0 : ∀ a, doubleProduct n0 m0 n1 m3 n2 m2 n3 m1 a = a)
    (h1 : ∀ a, doubleProduct n0 m1 n1 m0 n2 m3 n3 m2 a = 0)
    (h2 : ∀ a, doubleProduct n0 m2 n1 m1 n2 m0 n3 m3 a = 0)
    (h3 : ∀ a, doubleProduct n0 m3 n1 m2 n2 m1 n3 m0 a = 0)
    (w : Column) : mulColumn n0 n1 n2 n3 (mulColumn m0 m1 m2 m3 w) = w := by
  obtain ⟨a, b, c, d⟩ := w
  unfold doubleProduct at h0 h1 h2 h3
  simp only [mulColumn, gmul_xor, Column.mk.injEq]
  refine ⟨?_, ?_, ?_, ?_⟩
  · exact xor_eq_of_parts (by ac_rfl) (h0 a) (h1 b) (h2 c) (h3 d)
  · exact xor_eq_of_parts (by ac_rfl) (h0 b) (h1 c) (h2 d) (h3 a)
  · exact xor_eq_of_parts (by ac_rfl) (h0 c) (h1 d) (h2 a) (h3 b)
  · exact xor_eq_of_parts (by ac_rfl) (h0 d) (h1 a) (h2 b) (h3 c)

theorem invMix_mix_column (w : Column) :
    mulColumn 0x0e 0x0b 0x0d 0x09 (mulColumn 0x02 0x03 0x01 0x01 w) = w :=
  mulColumn_mulColumn (doubleProduct_eq_self (by decide +kernel)) (doubleProduct_eq_zero (by decide +kernel))
    (doubleProduct_eq_zero (by decide +kernel)) (doubleProduct_eq_zero (by decide +kernel)) w

theorem mix_invMix_column (w : Column) :
    mulColumn 0x02 0x03 0x01 0x01 (mulColumn 0x0e 0x0b 0x0d 0x09 w) = w :=
  mulColumn_mulColumn (doubleProduct_eq_self (by decide +kernel)) (doubleProduct_eq_zero (by decide +kernel))
    (doubleProduct_eq_zero (by decide +kernel)) (doubleProduct_eq_zero (by decide +kernel)) w

/-! ## The state -/

@[simp] theorem invSubBytes_subBytes (s : AesState) : invSubBytes (subBytes s) = s := by
  cases s
  simp [invSubBytes, subBytes, AesState.mapColumns, Column.map_map_of_inverse invSbox_sbox]

@[simp] theorem subBytes_invSubBytes (s : AesState) : subBytes (invSubBytes s) = s := by
  cases s
  simp [invSubBytes, subBytes, AesState.mapColumns, Column.map_map_of_inverse sbox_invSbox]

@[simp] theorem invShiftRows_shiftRows (s : AesState) : invShiftRows (shiftRows s) = s := rfl

@[simp] theorem shiftRows_invShiftRows (s : AesState) : shiftRows (invShiftRows s) = s := rfl

@[simp] theorem invMixColumns_mixColumns (s : AesState) : invMixColumns (mixColumns s) = s := by
  cases s
  simp only [invMixColumns, mixColumns, AesState.mapColumns, invMix_mix_column]

@[simp] theorem mixColumns_invMixColumns (s : AesState) : mixColumns (invMixColumns s) = s := by
  cases s
  simp only [invMixColumns, mixColumns, AesState.mapColumns, mix_invMix_column]

@[simp] theorem addRoundKey_addRoundKey (w : List Column) (r : Nat) (s : AesState) :
    addRoundKey w r (addRoundKey w r s) = s := by
  cases s
  simp [addRoundKey, Column.xor_self_right]

/-! ## Loading and storing -/

@[simp] theorem length_storeState (s : AesState) : (storeState s).length = 16 := rfl

@[simp] theorem loadState_storeState (s : AesState) : loadState (storeState s) = s := rfl

theorem storeState_loadState {b : Bytes} (h : b.length = 16) : storeState (loadState b) = b := by
  obtain ⟨b0, b1, b2, b3, b4, b5, b6, b7, b8, b9, b10, b11, b12, b13, b14, b15, rfl⟩ :
      ∃ b0 b1 b2 b3 b4 b5 b6 b7 b8 b9 b10 b11 b12 b13 b14 b15,
        b = [b0, b1, b2, b3, b4, b5, b6, b7, b8, b9, b10, b11, b12, b13, b14, b15] := by
    match b, h with
    | [b0, b1, b2, b3, b4, b5, b6, b7, b8, b9, b10, b11, b12, b13, b14, b15], _ =>
      exact ⟨b0, b1, b2, b3, b4, b5, b6, b7, b8, b9, b10, b11, b12, b13, b14, b15, rfl⟩
  rfl

@[simp] theorem length_encryptBlock (w : List Column) (b : Bytes) :
    (encryptBlock w b).length = 16 := by simp [encryptBlock]

@[simp] theorem length_decryptBlock (w : List Column) (b : Bytes) :
    (decryptBlock w b).length = 16 := by simp [decryptBlock]

/-! ## The rounds -/

/-- The rounds of the inverse cipher undo those of the cipher, from the last round's SubBytes and ShiftRows on. -/
theorem invCipherRounds_cipherRounds (w : List Column) (n : Nat) (s : AesState) :
    invCipherRounds w n (shiftRows (subBytes (cipherRounds w n s))) = shiftRows (subBytes s) := by
  induction n with
  | zero => rfl
  | succ n ih => simp [cipherRounds, invCipherRounds, ih]

/-- The rounds of the cipher undo those of the inverse cipher, in the same form. -/
theorem cipherRounds_invCipherRounds (w : List Column) (n : Nat) (s : AesState) :
    shiftRows (subBytes (cipherRounds w n (invSubBytes (invShiftRows (invCipherRounds w n s))))) = s := by
  induction n generalizing s with
  | zero => simp [cipherRounds, invCipherRounds]
  | succ n ih =>
    have h := ih (invMixColumns (addRoundKey w (n + 1) (invSubBytes (invShiftRows s))))
    simp [cipherRounds, invCipherRounds, h]

end Sys2Proof.Machine
end

