-- ==== Sys2Proof/Laws/Bytes.lean ====
section
/-!
SUPPORT. Byte strings: lengths, slices of concatenations, lanes of words, blocks, register files.
-/

namespace Sys2Proof.Machine

/-! ## Lengths -/

@[simp] theorem length_zeros (n : Nat) : (zeros n).length = n := by simp [zeros]

@[simp] theorem length_rep (b : Byte) (n : Nat) : (rep b n).length = n := by simp [rep]

theorem length_slice (b : Bytes) (i j : Nat) : (slice b i j).length = min (j - i) (b.length - i) := by
  simp [slice]

@[simp] theorem length_xorBytes (x y : Bytes) : (xorBytes x y).length = min x.length y.length := by
  simp [xorBytes]

@[simp] theorem length_lanes {w : Nat} (n : Nat) (v : BitVec w) : (lanes n v).length = n := by
  simp [lanes]

@[simp] theorem length_beBytes (n v : Nat) : (beBytes n v).length = n := by simp [beBytes]

@[simp] theorem length_be64 (v : Nat) : (be64 v).length = 8 := by simp [be64]

@[simp] theorem length_be128 (v : Nat) : (be128 v).length = 16 := by simp [be128]

/-! ## Slices of concatenations -/

theorem slice_append_left (x y : Bytes) : slice (x ++ y) 0 x.length = x := by simp [slice]

theorem slice_append_right (x y : Bytes) : slice (x ++ y) x.length (x ++ y).length = y := by
  simp [slice]

theorem slice_append_middle (x y z : Bytes) :
    slice (x ++ y ++ z) x.length (x.length + y.length) = y := by simp [slice]

/-! ## Exclusive-or -/

theorem xorBytes_xorBytes_self {x c : Bytes} (h : x.length = c.length) :
    xorBytes (xorBytes x c) c = x := by
  induction x generalizing c with
  | nil => rfl
  | cons a x ih =>
    cases c with
    | nil => simp at h
    | cons b c =>
      simp only [List.length_cons, Nat.add_right_cancel_iff] at h
      have := ih h
      simp only [xorBytes] at this ⊢
      simp [this]

/-! ## Lanes -/

theorem getD_lanes {w : Nat} (n : Nat) (v : BitVec w) (j : Nat) (h : j < n) :
    (lanes n v).getD j 0 = lane v j := by
  simp [lanes, List.getD_eq_getElem?_getD, h]

theorem lane_le32 (b0 b1 b2 b3 : Byte) :
    lane (le32 b0 b1 b2 b3) 0 = b0 ∧ lane (le32 b0 b1 b2 b3) 1 = b1 ∧
    lane (le32 b0 b1 b2 b3) 2 = b2 ∧ lane (le32 b0 b1 b2 b3) 3 = b3 := by
  refine ⟨?_, ?_, ?_, ?_⟩ <;>
  · apply BitVec.eq_of_getLsbD_eq
    intro i hi
    simp only [lane, le32, BitVec.getLsbD_extractLsb', BitVec.getLsbD_append, hi, decide_true,
      Bool.true_and]
    repeat' split
    all_goals first | omega | (congr 1; omega)

theorem le32_lanes (v : Word) : le32 (lane v 0) (lane v 1) (lane v 2) (lane v 3) = v := by
  apply BitVec.eq_of_getLsbD_eq
  intro i hi
  simp only [lane, le32, BitVec.getLsbD_extractLsb', BitVec.getLsbD_append]
  by_cases h1 : i < 8
  · simp [h1]
  by_cases h2 : i - 8 < 8
  · have e : 8 * 1 + (i - 8) = i := by omega
    rw [if_neg h1, if_pos h2, e, decide_eq_true h2, Bool.true_and]
  by_cases h3 : i - 8 - 8 < 8
  · have e : 8 * 2 + (i - 8 - 8) = i := by omega
    rw [if_neg h1, if_neg h2, if_pos h3, e, decide_eq_true h3, Bool.true_and]
  · have h4 : i - 8 - 8 - 8 < 8 := by omega
    have e : 8 * 3 + (i - 8 - 8 - 8) = i := by omega
    rw [if_neg h1, if_neg h2, if_neg h3, e, decide_eq_true h4, Bool.true_and]

/-! ## Blocks -/

@[simp] theorem length_blocksOf (size count : Nat) (b : Bytes) :
    (blocksOf size count b).length = count := by
  induction count generalizing b with
  | zero => rfl
  | succ k ih => simp [blocksOf, ih]

theorem length_of_mem_blocksOf {size count : Nat} {b x : Bytes} (h : size * count ≤ b.length)
    (hx : x ∈ blocksOf size count b) : x.length = size := by
  induction count generalizing b with
  | zero => simp [blocksOf] at hx
  | succ k ih =>
    simp only [blocksOf, List.mem_cons] at hx
    rw [Nat.mul_succ] at h
    rcases hx with rfl | hx
    · simp
      omega
    · exact ih (by simp; omega) hx

theorem flatten_blocksOf {size count : Nat} {b : Bytes} (h : b.length = size * count) :
    (blocksOf size count b).flatten = b := by
  induction count generalizing b with
  | zero =>
    have : b = [] := List.length_eq_zero_iff.mp (by simpa using h)
    simp [blocksOf, this]
  | succ k ih =>
    rw [blocksOf, List.flatten_cons, ih (by simp [h, Nat.mul_succ]), List.take_append_drop]

/-- Cutting a concatenation of blocks gives the blocks. -/
theorem blocksOf_flatten {size : Nat} {xs : List Bytes} (h : ∀ x ∈ xs, x.length = size) :
    blocksOf size xs.length xs.flatten = xs := by
  induction xs with
  | nil => rfl
  | cons x xs ih =>
    have hx : x.length = size := h x (by simp)
    simp only [List.length_cons, blocksOf, List.flatten_cons]
    rw [← hx, List.take_left', List.drop_left', hx, ih fun y hy => h y (by simp [hy])] <;> rfl

/-! ## Register files -/

theorem length_flatMap_lanes (ws : List Word) : (ws.flatMap (lanes 4)).length = 4 * ws.length := by
  induction ws with
  | nil => rfl
  | cons w ws ih => simp [ih]; omega

@[simp] theorem length_fileBytes {n : Nat} (file : Vector Word n) : (fileBytes file).length = 4 * n := by
  rw [fileBytes, length_flatMap_lanes, Vector.length_toList]

theorem getD_flatMap_lanes (ws : List Word) (i j : Nat) (hj : j < 4) :
    (ws.flatMap (lanes 4)).getD (4 * i + j) 0 = lane (ws.getD i 0) j := by
  induction ws generalizing i with
  | nil => simp [lane]
  | cons w ws ih =>
    rw [List.flatMap_cons]
    cases i with
    | zero =>
      rw [List.getD_append _ _ _ _ (by simpa using hj)]
      simpa using getD_lanes 4 w j hj
    | succ i =>
      rw [List.getD_append_right _ _ _ _ (by simp; omega), length_lanes,
        show 4 * (i + 1) + j - 4 = 4 * i + j by omega, ih]
      simp

/-- Byte `4i + j` of a register file is lane `j` of register `i` (R103). -/
theorem getD_fileBytes {n : Nat} (file : Vector Word n) (i : Fin n) (j : Nat) (hj : j < 4) :
    (fileBytes file).getD (4 * i + j) 0 = lane file[i] j := by
  rw [fileBytes, getD_flatMap_lanes _ _ _ hj]
  simp [List.getD_eq_getElem?_getD]

@[simp] theorem length_compositeKey (snap : Snapshot) : (compositeKey snap).length = 64 := by
  simp [compositeKey]

@[simp] theorem length_ivRegBytes (snap : Snapshot) : (ivRegBytes snap).length = 16 := by
  simp [ivRegBytes]

/-- An IV is 16 bytes, whichever source it comes from (R131). -/
theorem length_of_obtainIv {snap : Snapshot} {s : State} {iv : Bytes} (h : obtainIv snap s = some iv) :
    iv.length = 16 := by
  unfold obtainIv at h
  split at h
  · simp_all [← Option.some.inj h]
  · split at h
    · obtain ⟨d, -, rfl⟩ := Option.map_eq_some_iff.mp h
      simp [Config.ivBytes]
    · simp at h

@[simp] theorem length_inputOperand (snap : Snapshot) (s : State) :
    (inputOperand snap s).length = snap.ops.inlen.toNat := by simp [inputOperand, Memory.readBytes]

@[simp] theorem length_aadOperand (snap : Snapshot) (s : State) :
    (aadOperand snap s).length = snap.ops.aadlen.toNat := by simp [aadOperand, Memory.readBytes]

end Sys2Proof.Machine
end

