-- ==== Sys2Proof/Laws/Cbc.lean ====
section
/-!
SUPPORT. CBC and padding: lengths, and the block laws the round trips are put together from.
-/

namespace Sys2Proof.Machine

theorem length_cbcEncBlocks (w : List Column) (c : Bytes) (xs : List Bytes) :
    (cbcEncBlocks w c xs).length = 16 * xs.length := by
  induction xs generalizing c with
  | nil => rfl
  | cons x xs ih => simp [cbcEncBlocks, ih]; omega

/-- The output of CBC encryption has whole blocks, one for each whole block of the input (R190). -/
theorem length_cbcEnc (k iv x : Bytes) : (cbcEnc k iv x).length = 16 * (x.length / 16) := by
  simp [cbcEnc, length_cbcEncBlocks, aesBlocks, Config.aesBlockBytes]

theorem length_cbcDecBlocks_le (w : List Column) (c : Bytes) (ys : List Bytes) :
    (cbcDecBlocks w c ys).length ≤ 16 * ys.length := by
  induction ys generalizing c with
  | nil => simp [cbcDecBlocks]
  | cons y ys ih =>
    have := ih y
    simp only [cbcDecBlocks, List.length_append, length_xorBytes, length_decryptBlock, List.length_cons]
    omega

theorem length_cbcDecBlocks {w : List Column} {c : Bytes} {ys : List Bytes} (hc : c.length = 16)
    (hy : ∀ y ∈ ys, y.length = 16) : (cbcDecBlocks w c ys).length = 16 * ys.length := by
  induction ys generalizing c with
  | nil => rfl
  | cons y ys ih =>
    have := ih (hy y (by simp)) fun z hz => hy z (by simp [hz])
    simp [cbcDecBlocks, this, hc]
    omega

/-- CBC decryption never gives more bytes than it is given (R191). -/
theorem length_cbcDec_le (k iv e : Bytes) : (cbcDec k iv e).length ≤ e.length := by
  have := length_cbcDecBlocks_le (keyExpansion k) iv (aesBlocks e)
  simp only [aesBlocks, length_blocksOf, Config.aesBlockBytes] at this
  simp only [cbcDec, aesBlocks, Config.aesBlockBytes]
  omega

/-- On whole blocks CBC decryption gives as many bytes as it is given (R191). -/
theorem length_cbcDec {k iv e : Bytes} (hi : iv.length = 16) (he : e.length % 16 = 0) :
    (cbcDec k iv e).length = e.length := by
  unfold cbcDec aesBlocks
  rw [length_cbcDecBlocks hi, length_blocksOf]
  · simp only [Config.aesBlockBytes]
    omega
  · intro y hy
    exact length_of_mem_blocksOf (by simp only [Config.aesBlockBytes]; omega) hy

/-- The blocks of the CBC chain, as a list. -/
def cbcChain (w : List Column) : (c : Bytes) → List Bytes → List Bytes
  | _, [] => []
  | c, x :: xs => encryptBlock w (xorBytes x c) :: cbcChain w (encryptBlock w (xorBytes x c)) xs

theorem flatten_cbcChain (w : List Column) (c : Bytes) (xs : List Bytes) :
    (cbcChain w c xs).flatten = cbcEncBlocks w c xs := by
  induction xs generalizing c with
  | nil => rfl
  | cons x xs ih => simp [cbcChain, cbcEncBlocks, ih]

@[simp] theorem length_cbcChain (w : List Column) (c : Bytes) (xs : List Bytes) :
    (cbcChain w c xs).length = xs.length := by
  induction xs generalizing c with
  | nil => rfl
  | cons x xs ih => simp [cbcChain, ih]

theorem length_of_mem_cbcChain {w : List Column} {c y : Bytes} {xs : List Bytes}
    (h : y ∈ cbcChain w c xs) : y.length = 16 := by
  induction xs generalizing c with
  | nil => simp [cbcChain] at h
  | cons x xs ih =>
    simp only [cbcChain, List.mem_cons] at h
    rcases h with rfl | h
    · simp
    · exact ih h

/-- The blocks of a CBC output are the blocks of the chain (R187, R190). -/
theorem aesBlocks_cbcEncBlocks (w : List Column) (c : Bytes) (xs : List Bytes) :
    aesBlocks (cbcEncBlocks w c xs) = cbcChain w c xs := by
  have h := blocksOf_flatten fun y hy => length_of_mem_cbcChain (w := w) (c := c) (xs := xs) hy
  rw [length_cbcChain, flatten_cbcChain] at h
  simpa [aesBlocks, Config.aesBlockBytes, length_cbcEncBlocks] using h

/-! ## Padding -/

theorem padLength_pos (n : Nat) : 1 ≤ padLength n := by
  simp only [padLength, Config.aesBlockBytes]
  omega

theorem padLength_le (n : Nat) : padLength n ≤ 16 := by
  simp only [padLength, Config.aesBlockBytes]
  omega

theorem length_pkcs7Pad (pt : Bytes) : (pkcs7Pad pt).length = 16 * (pt.length / 16 + 1) := by
  simp only [pkcs7Pad, List.length_append, length_rep, padLength, Config.aesBlockBytes]
  omega

theorem ofNat_toNat_of_le {p : Nat} (h : p ≤ 16) : (BitVec.ofNat 8 p).toNat = p := by
  simp
  omega

theorem paddingOk_iff {x : Bytes} {p : Nat} : paddingOk x p = true ↔
    1 ≤ p ∧ p ≤ 16 ∧ ∀ i, i < p → x.getD (x.length - (i + 1)) 0 = BitVec.ofNat 8 p := by
  simp only [paddingOk, Bool.and_eq_true, decide_eq_true_eq, List.all_eq_true, List.mem_range, beq_iff_eq,
    and_assoc]
  exact Iff.rfl

/-- What unpadding answers, when it answers: the input without its last `p` bytes, each of which is `p` (R193). -/
theorem pkcs7Unpad_some {x pt : Bytes} (hx : 16 ≤ x.length) (h : pkcs7Unpad x = some pt) :
    ∃ p, 1 ≤ p ∧ p ≤ 16 ∧ x = pt ++ rep (BitVec.ofNat 8 p) p := by
  unfold pkcs7Unpad at h
  split at h
  · rename_i hp
    generalize lastByteValue x = p at *
    obtain ⟨h1, h16, hall⟩ := paddingOk_iff.mp hp
    refine ⟨p, h1, h16, ?_⟩
    have hd : x.drop (x.length - p) = rep (BitVec.ofNat 8 p) p := by
      apply List.ext_getElem
      · simp
        omega
      · intro i hi hi'
        simp only [List.length_drop, length_rep] at hi hi'
        have := hall (p - 1 - i) (by omega)
        rw [show x.length - (p - 1 - i + 1) = x.length - p + i by omega,
          List.getD_eq_getElem?_getD, List.getElem?_eq_getElem (by omega), Option.getD_some] at this
        simpa [rep] using this
    rw [← Option.some.inj h, ← hd, List.take_append_drop]
  · simp at h

/-- A byte string that ends in `p` bytes `p` is unpadded to what stands before them (R193). -/
theorem pkcs7Unpad_append_rep {pt : Bytes} {p : Nat} (h1 : 1 ≤ p) (h16 : p ≤ 16) :
    pkcs7Unpad (pt ++ rep (BitVec.ofNat 8 p) p) = some pt := by
  have hget : ∀ i, i < p →
      (pt ++ rep (BitVec.ofNat 8 p) p).getD ((pt ++ rep (BitVec.ofNat 8 p) p).length - (i + 1)) 0 =
        BitVec.ofNat 8 p := by
    intro i hi
    rw [List.getD_append_right _ _ _ _ (by simp; omega), rep, List.getD_eq_getElem?_getD,
      List.getElem?_replicate, if_pos (by simp; omega), Option.getD_some]
  have hlast : lastByteValue (pt ++ rep (BitVec.ofNat 8 p) p) = p := by
    rw [lastByteValue, hget 0 (by omega), ofNat_toNat_of_le h16]
  rw [pkcs7Unpad, hlast, if_pos (paddingOk_iff.mpr ⟨h1, h16, hget⟩)]
  simp

end Sys2Proof.Machine
end

