-- ==== Sys2Proof/Laws/Sha512.lean ====
section
/-!
SUPPORT. SHA-512, HMAC and the tag: lengths.
-/

namespace Sys2Proof.Machine

@[simp] theorem length_hashState_bytes (s : HashState) : s.bytes.length = 64 := by
  simp [HashState.bytes]

/-- The digest is 64 bytes (R216). -/
@[simp] theorem length_sha512 (m : Bytes) : (sha512 m).length = 64 := by simp [sha512]

@[simp] theorem length_hmac512 (k m : Bytes) : (hmac512 k m).length = 64 := by simp [hmac512]

@[simp] theorem length_trunc32 (m : Bytes) : (trunc32 m).length = min 32 m.length := by
  simp [trunc32, length_slice, Config.tagBytes]

/-- A tag is 32 bytes (R224). -/
@[simp] theorem length_tag (k a iv e : Bytes) : (tag k a iv e).length = 32 := by simp [tag]

end Sys2Proof.Machine
end

