-- ==== Sys2Proof/Laws/Aead.lean ====
section
/-!
SUPPORT. The composite construction: the comparator's accumulator and the parts of a blob.
-/

namespace Sys2Proof.Machine

/-- The accumulator is zero exactly when the first `n` byte pairs are equal (43 R240). -/
theorem tagDifference_eq_zero (t t2 : Bytes) (n : Nat) :
    tagDifference t t2 n = 0 ↔ ∀ i, i < n → t.getD i 0 = t2.getD i 0 := by
  induction n with
  | zero => simp [tagDifference]
  | succ n ih =>
    have hor : ∀ a b : Byte, a ||| b = 0 ↔ a = 0 ∧ b = 0 := fun _ _ => BitVec.or_eq_zero_iff
    have hxor : ∀ a b : Byte, a ^^^ b = 0 ↔ a = b := fun _ _ => BitVec.xor_eq_zero_iff
    rw [tagDifference, hor, ih, hxor]
    constructor
    · rintro ⟨h1, h2⟩ i hi
      by_cases h : i < n
      · exact h1 i h
      · rw [show i = n by omega]
        exact h2
    · exact fun h => ⟨fun i hi => h i (by omega), h n (by omega)⟩

/-- A blob is its IV, its body and its tag (40 R133, R134). -/
theorem blob_parts {iv e t : Bytes} (hi : iv.length = 16) (ht : t.length = 32) :
    blobIv (iv ++ e ++ t) = iv ∧ blobBody (iv ++ e ++ t) = e ∧ blobTag (iv ++ e ++ t) = t := by
  have hlen : (iv ++ e ++ t).length - 32 = (iv ++ e).length := by
    simp only [List.length_append]
    omega
  refine ⟨?_, ?_, ?_⟩
  · rw [blobIv, Config.ivBytes, List.append_assoc, ← hi]
    exact slice_append_left _ _
  · rw [blobBody, Config.ivBytes, Config.tagBytes, hlen, List.length_append, ← hi]
    exact slice_append_middle _ _ _
  · rw [blobTag, Config.tagBytes, hlen]
    exact slice_append_right _ _

end Sys2Proof.Machine
end

