-- ==== Sys2Proof/Laws/Memory.lean ====
section
/-!
SUPPORT. The laws of the data buffer: what a read answers after each operation, and that each operation keeps the
canonical form and the bound of the offsets. They hold of every memory, canonical or not, but for the last two.
-/

namespace Sys2Proof.Machine

/-! ## Reading one byte -/

@[simp] theorem Memory.read_nil (a : Nat) : Memory.read [] a = Memory.blank := rfl

theorem Memory.read_cons (k : Nat) (c : Byte) (rest : Memory) (a : Nat) :
    Memory.read ((k, c) :: rest) a = if k = a then c else Memory.read rest a := rfl

theorem Memory.read_filter (m : Memory) (p : Nat → Bool) (a : Nat) :
    Memory.read (m.filter fun c => p c.1) a = if p a then Memory.read m a else Memory.blank := by
  induction m with
  | nil => simp
  | cons c rest ih =>
    obtain ⟨k, b⟩ := c
    by_cases hk : k = a
    · subst hk
      cases hp : p k <;> simp_all [Memory.read_cons]
    · cases hp : p k <;> simp [Memory.read_cons, hp, hk, ih]

@[simp] theorem Memory.read_erase (m : Memory) (a x : Nat) :
    Memory.read (Memory.erase m a) x = if x = a then Memory.blank else Memory.read m x := by
  have h := Memory.read_filter m (fun k => k != a) x
  by_cases hx : x = a <;> simp_all [Memory.erase]

theorem Memory.read_insert (m : Memory) (a x : Nat) (b : Byte) (hm : ∀ c ∈ m, c.1 ≠ a) :
    Memory.read (Memory.insert m a b) x = if x = a then b else Memory.read m x := by
  induction m with
  | nil => simp [Memory.insert, Memory.read_cons, eq_comm]
  | cons c rest ih =>
    obtain ⟨k, d⟩ := c
    have hk : k ≠ a := hm (k, d) (by simp)
    have ih := ih fun c hc => hm c (by simp [hc])
    simp only [Memory.insert]
    split
    · simp [Memory.read_cons, eq_comm]
    · rw [Memory.read_cons, Memory.read_cons, ih]
      by_cases hx : k = x
      · simp [← hx, hk]
      · simp [hx]

/-- A read after a write. -/
theorem Memory.read_write (m : Memory) (a x : Nat) (b : Byte) :
    Memory.read (Memory.write m a b) x = if x = a then b else Memory.read m x := by
  unfold Memory.write
  by_cases hb : b = Memory.blank
  · simp [hb]
  · rw [if_neg hb, Memory.read_insert _ _ _ _ (by simp [Memory.erase])]
    by_cases hx : x = a <;> simp [hx]

/-! ## Reading and writing byte strings -/

@[simp] theorem Memory.length_readBytes (m : Memory) (off n : Nat) :
    (Memory.readBytes m off n).length = n := by simp [Memory.readBytes]

theorem Memory.getD_readBytes (m : Memory) (off n i : Nat) (h : i < n) :
    (Memory.readBytes m off n).getD i 0 = Memory.read m (off + i) := by
  simp [Memory.readBytes, List.getD_eq_getElem?_getD, h]

theorem Memory.readBytes_congr (m m' : Memory) (off off' n : Nat)
    (h : ∀ i, i < n → Memory.read m (off + i) = Memory.read m' (off' + i)) :
    Memory.readBytes m off n = Memory.readBytes m' off' n := by
  apply List.map_congr_left
  intro i hi
  exact h i (by simpa using hi)

/-- A read after a write of a byte string. -/
theorem Memory.read_writeBytes (m : Memory) (off x : Nat) (bs : Bytes) :
    Memory.read (Memory.writeBytes m off bs) x =
      if off ≤ x ∧ x < off + bs.length then bs.getD (x - off) 0 else Memory.read m x := by
  induction bs generalizing m off with
  | nil => simp [Memory.writeBytes]
  | cons b bs ih =>
    rw [Memory.writeBytes, ih, Memory.read_write]
    by_cases hx : x = off
    · subst hx
      simp
    · by_cases hin : off + 1 ≤ x ∧ x < off + 1 + bs.length
      · obtain ⟨j, rfl⟩ : ∃ j, x = off + 1 + j := ⟨x - (off + 1), by omega⟩
        have h1 : off + 1 + j - (off + 1) = j := by omega
        have h2 : off + 1 + j - off = j + 1 := by omega
        rw [if_pos hin, if_pos ⟨by omega, by simp; omega⟩, h1, h2]
        simp
      · rw [if_neg hin, if_neg hx, if_neg]
        simp
        omega

theorem Memory.readBytes_writeBytes (m : Memory) (off : Nat) (bs : Bytes) :
    Memory.readBytes (Memory.writeBytes m off bs) off bs.length = bs := by
  apply List.ext_getElem
  · simp
  · intro i h1 h2
    simp [Memory.readBytes, Memory.read_writeBytes, h2]

/-- A read after a zero-fill. -/
theorem Memory.read_zeroFill (m : Memory) (off n x : Nat) :
    Memory.read (Memory.zeroFill m off n) x =
      if off ≤ x ∧ x < off + n then Memory.blank else Memory.read m x := by
  have h := Memory.read_filter m (fun k => !(decide (off ≤ k) && decide (k < off + n))) x
  unfold Memory.zeroFill
  rw [h]
  by_cases h1 : off ≤ x <;> by_cases h2 : x < off + n <;> simp [h1, h2]

/-- A zero-fill reads as the write of as many zero bytes (R14, R124). -/
theorem Memory.zeroFill_eq_writeBytes (m : Memory) (off n x : Nat) :
    Memory.read (Memory.zeroFill m off n) x =
      Memory.read (Memory.writeBytes m off (zeros n)) x := by
  rw [Memory.read_zeroFill, Memory.read_writeBytes]
  by_cases h : off ≤ x ∧ x < off + n
  · have hlt : x - off < n := by omega
    simp [zeros, h, Memory.blank, List.getD_eq_getElem?_getD, hlt]
  · simp [zeros, h]

/-! ## The canonical form -/

theorem Memory.wfFrom_mono {m : Memory} {n k : Nat} (h : Memory.wfFrom n m = true) (hk : k ≤ n) :
    Memory.wfFrom k m = true := by
  cases m with
  | nil => rfl
  | cons c rest =>
    simp only [Memory.wfFrom, Bool.and_eq_true, decide_eq_true_eq] at h ⊢
    exact ⟨⟨by omega, h.1.2⟩, h.2⟩

theorem Memory.wfFrom_filter {m : Memory} {n : Nat} (p : Host.Cell → Bool)
    (h : Memory.wfFrom n m = true) : Memory.wfFrom n (m.filter p) = true := by
  induction m generalizing n with
  | nil => rfl
  | cons c rest ih =>
    simp only [Memory.wfFrom, Bool.and_eq_true, decide_eq_true_eq] at h
    have hr := ih h.2
    cases hp : p c
    · rw [List.filter_cons_of_neg (by simp [hp])]
      exact Memory.wfFrom_mono hr (by omega)
    · rw [List.filter_cons_of_pos hp]
      simp [Memory.wfFrom, h.1.1, hr]
      simpa using h.1.2

theorem Memory.wfFrom_insert {m : Memory} {n a : Nat} {b : Byte} (h : Memory.wfFrom n m = true)
    (ha : n ≤ a) (hb : b ≠ Memory.blank) (hm : ∀ c ∈ m, c.1 ≠ a) :
    Memory.wfFrom n (Memory.insert m a b) = true := by
  induction m generalizing n with
  | nil => simp [Memory.insert, Memory.wfFrom, ha, hb]
  | cons c rest ih =>
    obtain ⟨k, d⟩ := c
    have hk : k ≠ a := hm (k, d) (by simp)
    simp only [Memory.wfFrom, Bool.and_eq_true, decide_eq_true_eq] at h
    by_cases hlt : a < k
    · simp only [Memory.insert, hlt, if_true, Memory.wfFrom, Bool.and_eq_true, decide_eq_true_eq]
      exact ⟨⟨ha, by simpa using hb⟩, ⟨by omega, h.1.2⟩, h.2⟩
    · simp only [Memory.insert, hlt, if_false, Memory.wfFrom, Bool.and_eq_true, decide_eq_true_eq]
      exact ⟨h.1, ih h.2 (by omega) fun c hc => hm c (by simp [hc])⟩

/-- A write keeps the canonical form. -/
theorem Memory.wf_write {m : Memory} (a : Nat) (b : Byte) (h : Memory.wf m = true) :
    Memory.wf (Memory.write m a b) = true := by
  unfold Memory.write
  by_cases hb : b = Memory.blank
  · rw [if_pos hb]
    exact Memory.wfFrom_filter _ h
  · rw [if_neg hb]
    exact Memory.wfFrom_insert (Memory.wfFrom_filter _ h) (Nat.zero_le _) hb (by simp [Memory.erase])

/-- A write of a byte string keeps the canonical form. -/
theorem Memory.wf_writeBytes {m : Memory} (off : Nat) (bs : Bytes) (h : Memory.wf m = true) :
    Memory.wf (Memory.writeBytes m off bs) = true := by
  induction bs generalizing m off with
  | nil => exact h
  | cons b bs ih => exact ih _ (Memory.wf_write _ _ h)

/-- A zero-fill keeps the canonical form. -/
theorem Memory.wf_zeroFill {m : Memory} (off n : Nat) (h : Memory.wf m = true) :
    Memory.wf (Memory.zeroFill m off n) = true := Memory.wfFrom_filter _ h

/-! ## The bound of the offsets -/

theorem Memory.below_iff {n : Nat} {m : Memory} :
    Memory.below n m = true ↔ ∀ c ∈ m, c.1 < n := by simp [Memory.below]

theorem Memory.mem_insert {m : Memory} {a : Nat} {b : Byte} {c : Host.Cell}
    (h : c ∈ Memory.insert m a b) : c = (a, b) ∨ c ∈ m := by
  induction m with
  | nil => simpa [Memory.insert] using h
  | cons d rest ih =>
    obtain ⟨k, e⟩ := d
    by_cases hlt : a < k
    · simpa [Memory.insert, hlt] using h
    · simp only [Memory.insert, hlt, if_false, List.mem_cons] at h ⊢
      rcases h with h | h
      · exact .inr (.inl h)
      · rcases ih h with h | h
        · exact .inl h
        · exact .inr (.inr h)

/-- A write below the bound keeps it. -/
theorem Memory.below_write {n : Nat} {m : Memory} {a : Nat} (b : Byte)
    (h : Memory.below n m = true) (ha : a < n) : Memory.below n (Memory.write m a b) = true := by
  rw [Memory.below_iff] at *
  intro c hc
  unfold Memory.write at hc
  split at hc
  · exact h c (List.mem_of_mem_filter hc)
  · rcases Memory.mem_insert hc with hc | hc
    · simpa [hc] using ha
    · exact h c (List.mem_of_mem_filter hc)

/-- A write of a byte string that ends below the bound keeps it. -/
theorem Memory.below_writeBytes {n : Nat} {m : Memory} {off : Nat} (bs : Bytes)
    (h : Memory.below n m = true) (hb : off + bs.length ≤ n) :
    Memory.below n (Memory.writeBytes m off bs) = true := by
  induction bs generalizing m off with
  | nil => exact h
  | cons b bs ih =>
    simp only [List.length_cons] at hb
    exact ih (Memory.below_write b h (by omega)) (by omega)

/-- A zero-fill keeps the bound. -/
theorem Memory.below_zeroFill {n : Nat} {m : Memory} (off k : Nat)
    (h : Memory.below n m = true) : Memory.below n (Memory.zeroFill m off k) = true := by
  rw [Memory.below_iff] at *
  exact fun c hc => h c (List.mem_of_mem_filter hc)

/-! ## Equal memories are equal data -/

theorem Memory.read_eq_blank_of_wfFrom {m : Memory} {n a : Nat} (h : Memory.wfFrom n m = true)
    (ha : a < n) : Memory.read m a = Memory.blank := by
  induction m generalizing n with
  | nil => rfl
  | cons c rest ih =>
    obtain ⟨k, b⟩ := c
    simp only [Memory.wfFrom, Bool.and_eq_true, decide_eq_true_eq] at h
    rw [Memory.read_cons, if_neg (by omega)]
    exact ih h.2 (by omega)

/-- Two canonical memories that read alike at every offset are the same list. -/
theorem Memory.ext_of_wfFrom {m m' : Memory} {n : Nat} (h : Memory.wfFrom n m = true)
    (h' : Memory.wfFrom n m' = true) (hr : ∀ a, Memory.read m a = Memory.read m' a) : m = m' := by
  induction m generalizing m' n with
  | nil =>
    cases m' with
    | nil => rfl
    | cons c rest =>
      obtain ⟨k, b⟩ := c
      simp only [Memory.wfFrom, Bool.and_eq_true] at h'
      have := hr k
      simp [Memory.read_cons] at this
      simp [← this] at h'
  | cons c rest ih =>
    obtain ⟨k, b⟩ := c
    simp only [Memory.wfFrom, Bool.and_eq_true, decide_eq_true_eq] at h
    cases m' with
    | nil =>
      have := hr k
      simp [Memory.read_cons] at this
      simp [this] at h
    | cons c' rest' =>
      obtain ⟨k', b'⟩ := c'
      simp only [Memory.wfFrom, Bool.and_eq_true, decide_eq_true_eq] at h'
      have e1 := hr k
      have e2 := hr k'
      simp only [Memory.read_cons, if_true] at e1 e2
      have hkk : k = k' := by
        rcases Nat.lt_trichotomy k k' with hlt | heq | hgt
        · rw [if_neg (by omega), Memory.read_eq_blank_of_wfFrom h'.2 (by omega)] at e1
          simp [e1] at h
        · exact heq
        · rw [if_neg (by omega), Memory.read_eq_blank_of_wfFrom h.2 (by omega)] at e2
          simp [← e2] at h'
      subst hkk
      rw [if_pos rfl] at e1
      subst e1
      have hrest : rest = rest' := ih h.2 h'.2 fun a => by
        by_cases ha : k = a
        · subst ha
          rw [Memory.read_eq_blank_of_wfFrom h.2 (by omega),
            Memory.read_eq_blank_of_wfFrom h'.2 (by omega)]
        · have := hr a
          simpa [Memory.read_cons, ha] using this
      rw [hrest]

theorem Memory.ext_of_wf {m m' : Memory} (h : Memory.wf m = true) (h' : Memory.wf m' = true)
    (hr : ∀ a, Memory.read m a = Memory.read m' a) : m = m' := Memory.ext_of_wfFrom h h' hr

end Sys2Proof.Machine
end

