-- ==== Sys2Proof/Laws/State.lean ====
section
/-!
SUPPORT. What each update of the state does to each field: one lemma for each field of each update.
-/

namespace Sys2Proof.Machine

/-! ## accept -/

@[simp] theorem accept_bufSize (v : Word) (s : State) :
    (accept v s).bufSize = s.bufSize := rfl

@[simp] theorem accept_ivsrc (v : Word) (s : State) :
    (accept v s).ivsrc = s.ivsrc := rfl

@[simp] theorem accept_ie (v : Word) (s : State) :
    (accept v s).ie = s.ie := rfl

@[simp] theorem accept_phase (v : Word) (s : State) :
    (accept v s).phase = .busy ⟨v, s.ivsrc, s.ops⟩ := rfl

@[simp] theorem accept_done (v : Word) (s : State) :
    (accept v s).done = false := rfl

@[simp] theorem accept_accerr (v : Word) (s : State) :
    (accept v s).accerr = s.accerr := rfl

@[simp] theorem accept_result (v : Word) (s : State) :
    (accept v s).result = .none := rfl

@[simp] theorem accept_outlen (v : Word) (s : State) :
    (accept v s).outlen = 0 := rfl

@[simp] theorem accept_ops (v : Word) (s : State) :
    (accept v s).ops = s.ops := rfl

@[simp] theorem accept_buf (v : Word) (s : State) :
    (accept v s).buf = s.buf := rfl

@[simp] theorem accept_entReq (v : Word) (s : State) :
    (accept v s).entReq = s.entReq := rfl

@[simp] theorem accept_entData (v : Word) (s : State) :
    (accept v s).entData = s.entData := rfl

@[simp] theorem accept_rstHeld (v : Word) (s : State) :
    (accept v s).rstHeld = s.rstHeld := rfl

@[simp] theorem accept_rdata (v : Word) (s : State) :
    (accept v s).rdata = s.rdata := rfl

@[simp] theorem accept_inputs (v : Word) (s : State) :
    (accept v s).inputs = s.inputs := rfl

@[simp] theorem accept_draws (v : Word) (s : State) :
    (accept v s).draws = s.draws := rfl

/-! ## finish -/

@[simp] theorem finish_bufSize (code : ResultCode) (n : Nat) (s : State) :
    (finish code n s).bufSize = s.bufSize := rfl

@[simp] theorem finish_ivsrc (code : ResultCode) (n : Nat) (s : State) :
    (finish code n s).ivsrc = s.ivsrc := rfl

@[simp] theorem finish_ie (code : ResultCode) (n : Nat) (s : State) :
    (finish code n s).ie = s.ie := rfl

@[simp] theorem finish_phase (code : ResultCode) (n : Nat) (s : State) :
    (finish code n s).phase = .idle := rfl

@[simp] theorem finish_done (code : ResultCode) (n : Nat) (s : State) :
    (finish code n s).done = true := rfl

@[simp] theorem finish_accerr (code : ResultCode) (n : Nat) (s : State) :
    (finish code n s).accerr = s.accerr := rfl

@[simp] theorem finish_result (code : ResultCode) (n : Nat) (s : State) :
    (finish code n s).result = code := rfl

@[simp] theorem finish_outlen (code : ResultCode) (n : Nat) (s : State) :
    (finish code n s).outlen = BitVec.ofNat 32 n := rfl

@[simp] theorem finish_ops (code : ResultCode) (n : Nat) (s : State) :
    (finish code n s).ops = s.ops := rfl

@[simp] theorem finish_buf (code : ResultCode) (n : Nat) (s : State) :
    (finish code n s).buf = s.buf := rfl

@[simp] theorem finish_entReq (code : ResultCode) (n : Nat) (s : State) :
    (finish code n s).entReq = false := rfl

@[simp] theorem finish_entData (code : ResultCode) (n : Nat) (s : State) :
    (finish code n s).entData = none := rfl

@[simp] theorem finish_rstHeld (code : ResultCode) (n : Nat) (s : State) :
    (finish code n s).rstHeld = s.rstHeld := rfl

@[simp] theorem finish_rdata (code : ResultCode) (n : Nat) (s : State) :
    (finish code n s).rdata = s.rdata := rfl

@[simp] theorem finish_inputs (code : ResultCode) (n : Nat) (s : State) :
    (finish code n s).inputs = s.inputs := rfl

@[simp] theorem finish_draws (code : ResultCode) (n : Nat) (s : State) :
    (finish code n s).draws = s.draws := rfl

/-! ## raiseFailure -/

@[simp] theorem raiseFailure_bufSize (kind : FailureKind) (snap : Snapshot) (s : State) :
    (raiseFailure kind snap s).bufSize = s.bufSize := by cases kind <;> rfl

@[simp] theorem raiseFailure_ivsrc (kind : FailureKind) (snap : Snapshot) (s : State) :
    (raiseFailure kind snap s).ivsrc = s.ivsrc := by cases kind <;> rfl

@[simp] theorem raiseFailure_ie (kind : FailureKind) (snap : Snapshot) (s : State) :
    (raiseFailure kind snap s).ie = s.ie := by cases kind <;> rfl

@[simp] theorem raiseFailure_phase (kind : FailureKind) (snap : Snapshot) (s : State) :
    (raiseFailure kind snap s).phase = .idle := by cases kind <;> rfl

@[simp] theorem raiseFailure_done (kind : FailureKind) (snap : Snapshot) (s : State) :
    (raiseFailure kind snap s).done = true := by cases kind <;> rfl

@[simp] theorem raiseFailure_accerr (kind : FailureKind) (snap : Snapshot) (s : State) :
    (raiseFailure kind snap s).accerr = s.accerr := by cases kind <;> rfl

@[simp] theorem raiseFailure_result (kind : FailureKind) (snap : Snapshot) (s : State) :
    (raiseFailure kind snap s).result = kind.code := by cases kind <;> rfl

@[simp] theorem raiseFailure_outlen (kind : FailureKind) (snap : Snapshot) (s : State) :
    (raiseFailure kind snap s).outlen = 0 := by cases kind <;> rfl

@[simp] theorem raiseFailure_ops (kind : FailureKind) (snap : Snapshot) (s : State) :
    (raiseFailure kind snap s).ops = s.ops := by cases kind <;> rfl

@[simp] theorem raiseFailure_entReq (kind : FailureKind) (snap : Snapshot) (s : State) :
    (raiseFailure kind snap s).entReq = false := by cases kind <;> rfl

@[simp] theorem raiseFailure_entData (kind : FailureKind) (snap : Snapshot) (s : State) :
    (raiseFailure kind snap s).entData = none := by cases kind <;> rfl

@[simp] theorem raiseFailure_rstHeld (kind : FailureKind) (snap : Snapshot) (s : State) :
    (raiseFailure kind snap s).rstHeld = s.rstHeld := by cases kind <;> rfl

@[simp] theorem raiseFailure_rdata (kind : FailureKind) (snap : Snapshot) (s : State) :
    (raiseFailure kind snap s).rdata = s.rdata := by cases kind <;> rfl

@[simp] theorem raiseFailure_inputs (kind : FailureKind) (snap : Snapshot) (s : State) :
    (raiseFailure kind snap s).inputs = s.inputs := by cases kind <;> rfl

@[simp] theorem raiseFailure_draws (kind : FailureKind) (snap : Snapshot) (s : State) :
    (raiseFailure kind snap s).draws = s.draws := by cases kind <;> rfl

theorem raiseFailure_buf (kind : FailureKind) (snap : Snapshot) (s : State) :
    (raiseFailure kind snap s).buf =
      if kind = .invalidCiphertext then Memory.zeroFill s.buf snap.ops.outoff.toNat (decReserved snap)
      else s.buf := by cases kind <;> rfl

/-! ## requestEntropy -/

@[simp] theorem requestEntropy_bufSize (s : State) :
    (requestEntropy s).bufSize = s.bufSize := rfl

@[simp] theorem requestEntropy_ivsrc (s : State) :
    (requestEntropy s).ivsrc = s.ivsrc := rfl

@[simp] theorem requestEntropy_ie (s : State) :
    (requestEntropy s).ie = s.ie := rfl

@[simp] theorem requestEntropy_phase (s : State) :
    (requestEntropy s).phase = s.phase := rfl

@[simp] theorem requestEntropy_done (s : State) :
    (requestEntropy s).done = s.done := rfl

@[simp] theorem requestEntropy_accerr (s : State) :
    (requestEntropy s).accerr = s.accerr := rfl

@[simp] theorem requestEntropy_result (s : State) :
    (requestEntropy s).result = s.result := rfl

@[simp] theorem requestEntropy_outlen (s : State) :
    (requestEntropy s).outlen = s.outlen := rfl

@[simp] theorem requestEntropy_ops (s : State) :
    (requestEntropy s).ops = s.ops := rfl

@[simp] theorem requestEntropy_buf (s : State) :
    (requestEntropy s).buf = s.buf := rfl

@[simp] theorem requestEntropy_entReq (s : State) :
    (requestEntropy s).entReq = true := rfl

@[simp] theorem requestEntropy_entData (s : State) :
    (requestEntropy s).entData = none := rfl

@[simp] theorem requestEntropy_rstHeld (s : State) :
    (requestEntropy s).rstHeld = s.rstHeld := rfl

@[simp] theorem requestEntropy_rdata (s : State) :
    (requestEntropy s).rdata = s.rdata := rfl

@[simp] theorem requestEntropy_inputs (s : State) :
    (requestEntropy s).inputs = s.inputs := rfl

@[simp] theorem requestEntropy_draws (s : State) :
    (requestEntropy s).draws = s.draws := rfl

/-! ## finishEncrypt -/

@[simp] theorem finishEncrypt_bufSize (iv : Bytes) (snap : Snapshot) (s : State) :
    (finishEncrypt iv snap s).bufSize = s.bufSize := rfl

@[simp] theorem finishEncrypt_ivsrc (iv : Bytes) (snap : Snapshot) (s : State) :
    (finishEncrypt iv snap s).ivsrc = s.ivsrc := rfl

@[simp] theorem finishEncrypt_ie (iv : Bytes) (snap : Snapshot) (s : State) :
    (finishEncrypt iv snap s).ie = s.ie := rfl

@[simp] theorem finishEncrypt_phase (iv : Bytes) (snap : Snapshot) (s : State) :
    (finishEncrypt iv snap s).phase = .idle := rfl

@[simp] theorem finishEncrypt_done (iv : Bytes) (snap : Snapshot) (s : State) :
    (finishEncrypt iv snap s).done = true := rfl

@[simp] theorem finishEncrypt_accerr (iv : Bytes) (snap : Snapshot) (s : State) :
    (finishEncrypt iv snap s).accerr = s.accerr := rfl

@[simp] theorem finishEncrypt_result (iv : Bytes) (snap : Snapshot) (s : State) :
    (finishEncrypt iv snap s).result = .ok := rfl

@[simp] theorem finishEncrypt_outlen (iv : Bytes) (snap : Snapshot) (s : State) :
    (finishEncrypt iv snap s).outlen = BitVec.ofNat 32 (encLength snap) := rfl

@[simp] theorem finishEncrypt_ops (iv : Bytes) (snap : Snapshot) (s : State) :
    (finishEncrypt iv snap s).ops = s.ops := rfl

@[simp] theorem finishEncrypt_buf (iv : Bytes) (snap : Snapshot) (s : State) :
    (finishEncrypt iv snap s).buf = Memory.writeBytes s.buf snap.ops.outoff.toNat
      (aeadEncrypt (compositeKey snap) iv (inputOperand snap s) (aadOperand snap s)) := rfl

@[simp] theorem finishEncrypt_entReq (iv : Bytes) (snap : Snapshot) (s : State) :
    (finishEncrypt iv snap s).entReq = false := rfl

@[simp] theorem finishEncrypt_entData (iv : Bytes) (snap : Snapshot) (s : State) :
    (finishEncrypt iv snap s).entData = none := rfl

@[simp] theorem finishEncrypt_rstHeld (iv : Bytes) (snap : Snapshot) (s : State) :
    (finishEncrypt iv snap s).rstHeld = s.rstHeld := rfl

@[simp] theorem finishEncrypt_rdata (iv : Bytes) (snap : Snapshot) (s : State) :
    (finishEncrypt iv snap s).rdata = s.rdata := rfl

@[simp] theorem finishEncrypt_inputs (iv : Bytes) (snap : Snapshot) (s : State) :
    (finishEncrypt iv snap s).inputs = s.inputs := rfl

@[simp] theorem finishEncrypt_draws (iv : Bytes) (snap : Snapshot) (s : State) :
    (finishEncrypt iv snap s).draws = s.draws := rfl

/-! ## finishDecrypt -/

@[simp] theorem finishDecrypt_bufSize (pt : Bytes) (snap : Snapshot) (s : State) :
    (finishDecrypt pt snap s).bufSize = s.bufSize := rfl

@[simp] theorem finishDecrypt_ivsrc (pt : Bytes) (snap : Snapshot) (s : State) :
    (finishDecrypt pt snap s).ivsrc = s.ivsrc := rfl

@[simp] theorem finishDecrypt_ie (pt : Bytes) (snap : Snapshot) (s : State) :
    (finishDecrypt pt snap s).ie = s.ie := rfl

@[simp] theorem finishDecrypt_phase (pt : Bytes) (snap : Snapshot) (s : State) :
    (finishDecrypt pt snap s).phase = .idle := rfl

@[simp] theorem finishDecrypt_done (pt : Bytes) (snap : Snapshot) (s : State) :
    (finishDecrypt pt snap s).done = true := rfl

@[simp] theorem finishDecrypt_accerr (pt : Bytes) (snap : Snapshot) (s : State) :
    (finishDecrypt pt snap s).accerr = s.accerr := rfl

@[simp] theorem finishDecrypt_result (pt : Bytes) (snap : Snapshot) (s : State) :
    (finishDecrypt pt snap s).result = .ok := rfl

@[simp] theorem finishDecrypt_outlen (pt : Bytes) (snap : Snapshot) (s : State) :
    (finishDecrypt pt snap s).outlen = BitVec.ofNat 32 pt.length := rfl

@[simp] theorem finishDecrypt_ops (pt : Bytes) (snap : Snapshot) (s : State) :
    (finishDecrypt pt snap s).ops = s.ops := rfl

@[simp] theorem finishDecrypt_buf (pt : Bytes) (snap : Snapshot) (s : State) :
    (finishDecrypt pt snap s).buf = Memory.zeroFill (Memory.writeBytes s.buf snap.ops.outoff.toNat pt)
      (snap.ops.outoff.toNat + pt.length) (decReserved snap - pt.length) := rfl

@[simp] theorem finishDecrypt_entReq (pt : Bytes) (snap : Snapshot) (s : State) :
    (finishDecrypt pt snap s).entReq = false := rfl

@[simp] theorem finishDecrypt_entData (pt : Bytes) (snap : Snapshot) (s : State) :
    (finishDecrypt pt snap s).entData = none := rfl

@[simp] theorem finishDecrypt_rstHeld (pt : Bytes) (snap : Snapshot) (s : State) :
    (finishDecrypt pt snap s).rstHeld = s.rstHeld := rfl

@[simp] theorem finishDecrypt_rdata (pt : Bytes) (snap : Snapshot) (s : State) :
    (finishDecrypt pt snap s).rdata = s.rdata := rfl

@[simp] theorem finishDecrypt_inputs (pt : Bytes) (snap : Snapshot) (s : State) :
    (finishDecrypt pt snap s).inputs = s.inputs := rfl

@[simp] theorem finishDecrypt_draws (pt : Bytes) (snap : Snapshot) (s : State) :
    (finishDecrypt pt snap s).draws = s.draws := rfl

/-! ## writeCtrl -/

@[simp] theorem writeCtrl_bufSize (v : Word) (s : State) :
    (writeCtrl v s).bufSize = s.bufSize := rfl

@[simp] theorem writeCtrl_ivsrc (v : Word) (s : State) :
    (writeCtrl v s).ivsrc = v.getLsbD 0 := rfl

@[simp] theorem writeCtrl_ie (v : Word) (s : State) :
    (writeCtrl v s).ie = v.getLsbD 1 := rfl

@[simp] theorem writeCtrl_phase (v : Word) (s : State) :
    (writeCtrl v s).phase = s.phase := rfl

@[simp] theorem writeCtrl_done (v : Word) (s : State) :
    (writeCtrl v s).done = s.done := rfl

@[simp] theorem writeCtrl_accerr (v : Word) (s : State) :
    (writeCtrl v s).accerr = s.accerr := rfl

@[simp] theorem writeCtrl_result (v : Word) (s : State) :
    (writeCtrl v s).result = s.result := rfl

@[simp] theorem writeCtrl_outlen (v : Word) (s : State) :
    (writeCtrl v s).outlen = s.outlen := rfl

@[simp] theorem writeCtrl_ops (v : Word) (s : State) :
    (writeCtrl v s).ops = s.ops := rfl

@[simp] theorem writeCtrl_buf (v : Word) (s : State) :
    (writeCtrl v s).buf = s.buf := rfl

@[simp] theorem writeCtrl_entReq (v : Word) (s : State) :
    (writeCtrl v s).entReq = s.entReq := rfl

@[simp] theorem writeCtrl_entData (v : Word) (s : State) :
    (writeCtrl v s).entData = s.entData := rfl

@[simp] theorem writeCtrl_rstHeld (v : Word) (s : State) :
    (writeCtrl v s).rstHeld = s.rstHeld := rfl

@[simp] theorem writeCtrl_rdata (v : Word) (s : State) :
    (writeCtrl v s).rdata = s.rdata := rfl

@[simp] theorem writeCtrl_inputs (v : Word) (s : State) :
    (writeCtrl v s).inputs = s.inputs := rfl

@[simp] theorem writeCtrl_draws (v : Word) (s : State) :
    (writeCtrl v s).draws = s.draws := rfl

/-! ## writeStatus -/

@[simp] theorem writeStatus_bufSize (v : Word) (s : State) :
    (writeStatus v s).bufSize = s.bufSize := rfl

@[simp] theorem writeStatus_ivsrc (v : Word) (s : State) :
    (writeStatus v s).ivsrc = s.ivsrc := rfl

@[simp] theorem writeStatus_ie (v : Word) (s : State) :
    (writeStatus v s).ie = s.ie := rfl

@[simp] theorem writeStatus_phase (v : Word) (s : State) :
    (writeStatus v s).phase = s.phase := rfl

@[simp] theorem writeStatus_done (v : Word) (s : State) :
    (writeStatus v s).done = (s.done && !v.getLsbD 1) := rfl

@[simp] theorem writeStatus_accerr (v : Word) (s : State) :
    (writeStatus v s).accerr = (s.accerr && !v.getLsbD 2) := rfl

@[simp] theorem writeStatus_result (v : Word) (s : State) :
    (writeStatus v s).result = s.result := rfl

@[simp] theorem writeStatus_outlen (v : Word) (s : State) :
    (writeStatus v s).outlen = s.outlen := rfl

@[simp] theorem writeStatus_ops (v : Word) (s : State) :
    (writeStatus v s).ops = s.ops := rfl

@[simp] theorem writeStatus_buf (v : Word) (s : State) :
    (writeStatus v s).buf = s.buf := rfl

@[simp] theorem writeStatus_entReq (v : Word) (s : State) :
    (writeStatus v s).entReq = s.entReq := rfl

@[simp] theorem writeStatus_entData (v : Word) (s : State) :
    (writeStatus v s).entData = s.entData := rfl

@[simp] theorem writeStatus_rstHeld (v : Word) (s : State) :
    (writeStatus v s).rstHeld = s.rstHeld := rfl

@[simp] theorem writeStatus_rdata (v : Word) (s : State) :
    (writeStatus v s).rdata = s.rdata := rfl

@[simp] theorem writeStatus_inputs (v : Word) (s : State) :
    (writeStatus v s).inputs = s.inputs := rfl

@[simp] theorem writeStatus_draws (v : Word) (s : State) :
    (writeStatus v s).draws = s.draws := rfl

/-! ## refuseAccess -/

@[simp] theorem refuseAccess_bufSize (answer : Option Word) (s : State) :
    (refuseAccess answer s).bufSize = s.bufSize := rfl

@[simp] theorem refuseAccess_ivsrc (answer : Option Word) (s : State) :
    (refuseAccess answer s).ivsrc = s.ivsrc := rfl

@[simp] theorem refuseAccess_ie (answer : Option Word) (s : State) :
    (refuseAccess answer s).ie = s.ie := rfl

@[simp] theorem refuseAccess_phase (answer : Option Word) (s : State) :
    (refuseAccess answer s).phase = s.phase := rfl

@[simp] theorem refuseAccess_done (answer : Option Word) (s : State) :
    (refuseAccess answer s).done = s.done := rfl

@[simp] theorem refuseAccess_accerr (answer : Option Word) (s : State) :
    (refuseAccess answer s).accerr = true := rfl

@[simp] theorem refuseAccess_result (answer : Option Word) (s : State) :
    (refuseAccess answer s).result = s.result := rfl

@[simp] theorem refuseAccess_outlen (answer : Option Word) (s : State) :
    (refuseAccess answer s).outlen = s.outlen := rfl

@[simp] theorem refuseAccess_ops (answer : Option Word) (s : State) :
    (refuseAccess answer s).ops = s.ops := rfl

@[simp] theorem refuseAccess_buf (answer : Option Word) (s : State) :
    (refuseAccess answer s).buf = s.buf := rfl

@[simp] theorem refuseAccess_entReq (answer : Option Word) (s : State) :
    (refuseAccess answer s).entReq = s.entReq := rfl

@[simp] theorem refuseAccess_entData (answer : Option Word) (s : State) :
    (refuseAccess answer s).entData = s.entData := rfl

@[simp] theorem refuseAccess_rstHeld (answer : Option Word) (s : State) :
    (refuseAccess answer s).rstHeld = s.rstHeld := rfl

@[simp] theorem refuseAccess_rdata (answer : Option Word) (s : State) :
    (refuseAccess answer s).rdata = answer := rfl

@[simp] theorem refuseAccess_inputs (answer : Option Word) (s : State) :
    (refuseAccess answer s).inputs = s.inputs := rfl

@[simp] theorem refuseAccess_draws (answer : Option Word) (s : State) :
    (refuseAccess answer s).draws = s.draws := rfl

/-! ## resetRegisters -/

@[simp] theorem resetRegisters_bufSize (s : State) :
    (resetRegisters s).bufSize = s.bufSize := rfl

@[simp] theorem resetRegisters_ivsrc (s : State) :
    (resetRegisters s).ivsrc = false := rfl

@[simp] theorem resetRegisters_ie (s : State) :
    (resetRegisters s).ie = false := rfl

@[simp] theorem resetRegisters_phase (s : State) :
    (resetRegisters s).phase = .idle := rfl

@[simp] theorem resetRegisters_done (s : State) :
    (resetRegisters s).done = false := rfl

@[simp] theorem resetRegisters_accerr (s : State) :
    (resetRegisters s).accerr = false := rfl

@[simp] theorem resetRegisters_result (s : State) :
    (resetRegisters s).result = .none := rfl

@[simp] theorem resetRegisters_outlen (s : State) :
    (resetRegisters s).outlen = 0 := rfl

@[simp] theorem resetRegisters_ops (s : State) :
    (resetRegisters s).ops = OperandRegs.cleared := rfl

@[simp] theorem resetRegisters_buf (s : State) :
    (resetRegisters s).buf = s.buf := rfl

@[simp] theorem resetRegisters_entReq (s : State) :
    (resetRegisters s).entReq = false := rfl

@[simp] theorem resetRegisters_entData (s : State) :
    (resetRegisters s).entData = none := rfl

@[simp] theorem resetRegisters_rstHeld (s : State) :
    (resetRegisters s).rstHeld = true := rfl

@[simp] theorem resetRegisters_rdata (s : State) :
    (resetRegisters s).rdata = none := rfl

@[simp] theorem resetRegisters_inputs (s : State) :
    (resetRegisters s).inputs = s.inputs := rfl

@[simp] theorem resetRegisters_draws (s : State) :
    (resetRegisters s).draws = s.draws := rfl

/-! ## warmReset -/

@[simp] theorem warmReset_bufSize (s : State) :
    (warmReset s).bufSize = s.bufSize := rfl

@[simp] theorem warmReset_ivsrc (s : State) :
    (warmReset s).ivsrc = false := rfl

@[simp] theorem warmReset_ie (s : State) :
    (warmReset s).ie = false := rfl

@[simp] theorem warmReset_phase (s : State) :
    (warmReset s).phase = .idle := rfl

@[simp] theorem warmReset_done (s : State) :
    (warmReset s).done = false := rfl

@[simp] theorem warmReset_accerr (s : State) :
    (warmReset s).accerr = false := rfl

@[simp] theorem warmReset_result (s : State) :
    (warmReset s).result = .none := rfl

@[simp] theorem warmReset_outlen (s : State) :
    (warmReset s).outlen = 0 := rfl

@[simp] theorem warmReset_ops (s : State) :
    (warmReset s).ops = OperandRegs.cleared := rfl

@[simp] theorem warmReset_buf (s : State) :
    (warmReset s).buf = Memory.writeBytes s.buf (abortedRegion s).1
      (freeBytes s.draws (abortedRegion s).2) := rfl

@[simp] theorem warmReset_entReq (s : State) :
    (warmReset s).entReq = false := rfl

@[simp] theorem warmReset_entData (s : State) :
    (warmReset s).entData = none := rfl

@[simp] theorem warmReset_rstHeld (s : State) :
    (warmReset s).rstHeld = true := rfl

@[simp] theorem warmReset_rdata (s : State) :
    (warmReset s).rdata = none := rfl

@[simp] theorem warmReset_inputs (s : State) :
    (warmReset s).inputs = s.inputs := rfl

@[simp] theorem warmReset_draws (s : State) :
    (warmReset s).draws = s.draws + (abortedRegion s).2 := rfl

/-! ## powerOnReset -/

@[simp] theorem powerOnReset_bufSize (bufInit : Bytes) (s : State) :
    (powerOnReset bufInit s).bufSize = s.bufSize := rfl

@[simp] theorem powerOnReset_ivsrc (bufInit : Bytes) (s : State) :
    (powerOnReset bufInit s).ivsrc = false := rfl

@[simp] theorem powerOnReset_ie (bufInit : Bytes) (s : State) :
    (powerOnReset bufInit s).ie = false := rfl

@[simp] theorem powerOnReset_phase (bufInit : Bytes) (s : State) :
    (powerOnReset bufInit s).phase = .idle := rfl

@[simp] theorem powerOnReset_done (bufInit : Bytes) (s : State) :
    (powerOnReset bufInit s).done = false := rfl

@[simp] theorem powerOnReset_accerr (bufInit : Bytes) (s : State) :
    (powerOnReset bufInit s).accerr = false := rfl

@[simp] theorem powerOnReset_result (bufInit : Bytes) (s : State) :
    (powerOnReset bufInit s).result = .none := rfl

@[simp] theorem powerOnReset_outlen (bufInit : Bytes) (s : State) :
    (powerOnReset bufInit s).outlen = 0 := rfl

@[simp] theorem powerOnReset_ops (bufInit : Bytes) (s : State) :
    (powerOnReset bufInit s).ops = OperandRegs.cleared := rfl

@[simp] theorem powerOnReset_buf (bufInit : Bytes) (s : State) :
    (powerOnReset bufInit s).buf = Memory.writeBytes [] 0 (bufInit.take s.bufSize) := rfl

@[simp] theorem powerOnReset_entReq (bufInit : Bytes) (s : State) :
    (powerOnReset bufInit s).entReq = false := rfl

@[simp] theorem powerOnReset_entData (bufInit : Bytes) (s : State) :
    (powerOnReset bufInit s).entData = none := rfl

@[simp] theorem powerOnReset_rstHeld (bufInit : Bytes) (s : State) :
    (powerOnReset bufInit s).rstHeld = true := rfl

@[simp] theorem powerOnReset_rdata (bufInit : Bytes) (s : State) :
    (powerOnReset bufInit s).rdata = none := rfl

@[simp] theorem powerOnReset_inputs (bufInit : Bytes) (s : State) :
    (powerOnReset bufInit s).inputs = s.inputs := rfl

@[simp] theorem powerOnReset_draws (bufInit : Bytes) (s : State) :
    (powerOnReset bufInit s).draws = s.draws := rfl

/-! ## releaseReset -/

@[simp] theorem releaseReset_bufSize (s : State) :
    (releaseReset s).bufSize = s.bufSize := rfl

@[simp] theorem releaseReset_ivsrc (s : State) :
    (releaseReset s).ivsrc = s.ivsrc := rfl

@[simp] theorem releaseReset_ie (s : State) :
    (releaseReset s).ie = s.ie := rfl

@[simp] theorem releaseReset_phase (s : State) :
    (releaseReset s).phase = s.phase := rfl

@[simp] theorem releaseReset_done (s : State) :
    (releaseReset s).done = s.done := rfl

@[simp] theorem releaseReset_accerr (s : State) :
    (releaseReset s).accerr = s.accerr := rfl

@[simp] theorem releaseReset_result (s : State) :
    (releaseReset s).result = s.result := rfl

@[simp] theorem releaseReset_outlen (s : State) :
    (releaseReset s).outlen = s.outlen := rfl

@[simp] theorem releaseReset_ops (s : State) :
    (releaseReset s).ops = s.ops := rfl

@[simp] theorem releaseReset_buf (s : State) :
    (releaseReset s).buf = s.buf := rfl

@[simp] theorem releaseReset_entReq (s : State) :
    (releaseReset s).entReq = s.entReq := rfl

@[simp] theorem releaseReset_entData (s : State) :
    (releaseReset s).entData = s.entData := rfl

@[simp] theorem releaseReset_rstHeld (s : State) :
    (releaseReset s).rstHeld = false := rfl

@[simp] theorem releaseReset_rdata (s : State) :
    (releaseReset s).rdata = s.rdata := rfl

@[simp] theorem releaseReset_inputs (s : State) :
    (releaseReset s).inputs = s.inputs := rfl

@[simp] theorem releaseReset_draws (s : State) :
    (releaseReset s).draws = s.draws := rfl

/-! ## placeCommand -/

@[simp] theorem placeCommand_bufSize (v : Word) (s : State) :
    (placeCommand v s).bufSize = s.bufSize := rfl

@[simp] theorem placeCommand_ivsrc (v : Word) (s : State) :
    (placeCommand v s).ivsrc = s.ivsrc := rfl

@[simp] theorem placeCommand_ie (v : Word) (s : State) :
    (placeCommand v s).ie = s.ie := rfl

@[simp] theorem placeCommand_phase (v : Word) (s : State) :
    (placeCommand v s).phase = .busy ⟨v, s.ivsrc, s.ops⟩ := rfl

@[simp] theorem placeCommand_done (v : Word) (s : State) :
    (placeCommand v s).done = false := rfl

@[simp] theorem placeCommand_accerr (v : Word) (s : State) :
    (placeCommand v s).accerr = s.accerr := rfl

@[simp] theorem placeCommand_result (v : Word) (s : State) :
    (placeCommand v s).result = .none := rfl

@[simp] theorem placeCommand_outlen (v : Word) (s : State) :
    (placeCommand v s).outlen = 0 := rfl

@[simp] theorem placeCommand_ops (v : Word) (s : State) :
    (placeCommand v s).ops = s.ops := rfl

@[simp] theorem placeCommand_buf (v : Word) (s : State) :
    (placeCommand v s).buf = s.buf := rfl

@[simp] theorem placeCommand_entReq (v : Word) (s : State) :
    (placeCommand v s).entReq = s.entReq := rfl

@[simp] theorem placeCommand_entData (v : Word) (s : State) :
    (placeCommand v s).entData = s.entData := rfl

@[simp] theorem placeCommand_rstHeld (v : Word) (s : State) :
    (placeCommand v s).rstHeld = false := rfl

@[simp] theorem placeCommand_rdata (v : Word) (s : State) :
    (placeCommand v s).rdata = s.rdata := rfl

@[simp] theorem placeCommand_inputs (v : Word) (s : State) :
    (placeCommand v s).inputs = .sequencer :: s.inputs := rfl

@[simp] theorem placeCommand_draws (v : Word) (s : State) :
    (placeCommand v s).draws = s.draws := rfl

end Sys2Proof.Machine
end

