-- ==== Sys2Proof/Laws/Bus.lean ====
section
/-!
SUPPORT. The host port: where each offset of the aperture leads, which accesses are refused, and the two lemmas that
say all a host access can do.
-/

namespace Sys2Proof.Machine

/-! ## The register block (10 R32) -/

theorem busyLocked_registerAt : ∀ o, o < 0x100 → o % 4 = 0 →
    (busyLocked (registerAt o) = true ↔ (0x1C ≤ o ∧ o ≤ 0x34) ∨ (0x40 ≤ o ∧ o < 0x90)) := by
  decide +kernel

theorem registerAt_key : ∀ i : Fin 16, registerAt (0x40 + 4 * i.val) = .key i := by decide +kernel

theorem registerAt_iv : ∀ i : Fin 4, registerAt (0x80 + 4 * i.val) = .iv i := by decide +kernel

theorem registerAt_reserved : ∀ o, o < 0x100 → (o = 0x38 ∨ o = 0x3C ∨ 0x90 ≤ o) →
    registerAt o = .reserved := by decide +kernel

/-- The aligned offset of a register, for every target but the reserved one. -/
def registerOffset : Target → Nat
  | .id => 0x00
  | .version => 0x04
  | .param => 0x08
  | .ctrl => 0x0C
  | .status => 0x10
  | .result => 0x14
  | .outlen => 0x18
  | .cmd => 0x1C
  | .keylen => 0x20
  | .aadoff => 0x24
  | .aadlen => 0x28
  | .inoff => 0x2C
  | .inlen => 0x30
  | .outoff => 0x34
  | .key i => 0x40 + 4 * i.val
  | .iv i => 0x80 + 4 * i.val
  | .reserved => 0
  | .buffer k => 0x8000 + k
  | .unmapped => 0

/-- Each register stands at one offset: the register block names it nowhere else. -/
theorem registerOffset_registerAt : ∀ o, o < 0x100 → o % 4 = 0 →
    registerAt o = .reserved ∨ registerOffset (registerAt o) = o := by decide +kernel

theorem registerAt_ne_unmapped : ∀ o, o < 0x100 → registerAt o ≠ .unmapped := by decide +kernel

theorem registerAt_ne_buffer (o k : Nat) (h : o < 0x100) : registerAt o ≠ .buffer k := by
  intro e
  have : ∀ o, o < 0x100 → (match registerAt o with | .buffer _ => false | _ => true) = true := by
    decide +kernel
  simpa [e] using this o h

/-! ## The address map (20 R72) -/

theorem targetOf_register {b : Nat} {off : Offset} (h : off.toNat < 0x100) :
    targetOf b off = registerAt off.toNat := by simp [targetOf, h]

theorem windowBase_eq : Config.windowBase = 0x8000 := rfl

theorem targetOf_buffer {b k : Nat} {off : Offset} (h : off.toNat = 0x8000 + k) (hk : k + 4 ≤ b) :
    targetOf b off = .buffer k := by
  have hw := windowBase_eq
  have hd : off.toNat - Config.windowBase = k := by omega
  simp only [targetOf]
  rw [if_neg (by omega), if_pos (by omega), hd]

theorem targetOf_unmapped {b : Nat} {off : Offset} (h : 0x100 ≤ off.toNat)
    (hb : off.toNat < 0x8000 ∨ 0x8000 + b < off.toNat + 4) : targetOf b off = .unmapped := by
  have hw := windowBase_eq
  simp only [targetOf]
  rw [if_neg (by omega), if_neg (by omega)]

/-- The three parts of the aperture (20 R72). -/
theorem targetOf_cases (b : Nat) (off : Offset) :
    (off.toNat < 0x100 ∧ targetOf b off = registerAt off.toNat) ∨
    (∃ k, off.toNat = 0x8000 + k ∧ k + 4 ≤ b ∧ targetOf b off = .buffer k) ∨
    (0x100 ≤ off.toNat ∧ (off.toNat < 0x8000 ∨ 0x8000 + b < off.toNat + 4) ∧
      targetOf b off = .unmapped) := by
  by_cases h1 : off.toNat < 0x100
  · exact .inl ⟨h1, targetOf_register h1⟩
  · by_cases h2 : 0x8000 ≤ off.toNat ∧ off.toNat + 4 ≤ 0x8000 + b
    · refine .inr (.inl ⟨off.toNat - 0x8000, by omega, by omega, ?_⟩)
      exact targetOf_buffer (by omega) (by omega)
    · have h3 : off.toNat < 0x8000 ∨ 0x8000 + b < off.toNat + 4 := by omega
      exact .inr (.inr ⟨by omega, h3, targetOf_unmapped (by omega) h3⟩)

/-- A target other than the reserved and the unmapped one is named by one aligned offset. -/
theorem registerOffset_targetOf {b : Nat} {off : Offset} (h : off.toNat % 4 = 0) :
    targetOf b off = .reserved ∨ targetOf b off = .unmapped ∨
      registerOffset (targetOf b off) = off.toNat := by
  rcases targetOf_cases b off with ⟨ho, ht⟩ | ⟨k, hk, -, ht⟩ | ⟨-, -, ht⟩
  · rw [ht]
    rcases registerOffset_registerAt _ ho h with h | h
    · exact .inl h
    · exact .inr (.inr h)
  · exact .inr (.inr (by rw [ht, hk]; rfl))
  · exact .inr (.inl ht)

/-- The busy-locked targets by offset (10 R32, 20 R78). -/
theorem busyLocked_targetOf {b : Nat} {off : Offset} (h : off.toNat % 4 = 0) :
    busyLocked (targetOf b off) = true ↔ LockedOffset b off.toNat := by
  rcases targetOf_cases b off with ⟨ho, ht⟩ | ⟨k, hk, hb, ht⟩ | ⟨ho, hb, ht⟩
  · rw [ht, busyLocked_registerAt _ ho h, LockedOffset]
    omega
  · rw [ht, LockedOffset]
    simp only [busyLocked, true_iff]
    omega
  · rw [ht, LockedOffset]
    simp only [busyLocked, Bool.false_eq_true, false_iff]
    omega

/-! ## Refused accesses (20 R76, R78) -/

theorem legalAccess_iff {off : Offset} {size : AccessSize} :
    legalAccess off size = true ↔ size = .four ∧ off.toNat % 4 = 0 := by simp [legalAccess]

theorem refused_iff {off : Offset} {size : AccessSize} {s : State} :
    refused off size s = true ↔ RefusedAccess s off size := by
  by_cases hl : size = .four ∧ off.toNat % 4 = 0
  · have h1 := legalAccess_iff.mpr hl
    rw [refused, h1, Bool.not_true, Bool.false_or, Bool.and_eq_true, busyLocked_targetOf hl.2]
    simp [RefusedAccess, hl]
  · have h1 : legalAccess off size = false := by simpa using mt legalAccess_iff.mp hl
    simp only [refused, h1, Bool.not_false, Bool.true_or, RefusedAccess, true_iff]
    by_cases h4 : size = .four
    · exact .inr (.inl fun h => hl ⟨h4, h⟩)
    · exact .inl h4

/-- All a host read can do (20 R73 to R78, 70 R280). -/
theorem hostRead_cases (off : Offset) (size : AccessSize) (s : State) :
    (s.rstHeld = true ∧ hostRead off size s = { s with rdata := some 0 }) ∨
    (s.rstHeld = false ∧ RefusedAccess s off size ∧
      hostRead off size s = { s with accerr := true, rdata := some 0 }) ∨
    (s.rstHeld = false ∧ ¬RefusedAccess s off size ∧
      hostRead off size s = { s with rdata := some (readTarget s (targetOf s.bufSize off)) }) := by
  unfold hostRead
  cases hr : s.rstHeld
  · by_cases h : RefusedAccess s off size
    · simp [hr, refused_iff.mpr h, h, refuseAccess]
    · simp [mt refused_iff.mp h, h]
  · simp

/-- All a host write can do (20 R73 to R78, 70 R280). -/
theorem hostWrite_cases (off : Offset) (size : AccessSize) (v : Word) (s : State) :
    (s.rstHeld = true ∧ hostWrite off size v s = { s with rdata := none }) ∨
    (s.rstHeld = false ∧ RefusedAccess s off size ∧
      hostWrite off size v s = { s with accerr := true, rdata := none }) ∨
    (s.rstHeld = false ∧ ¬RefusedAccess s off size ∧
      hostWrite off size v s = writeTarget v { s with rdata := none } (targetOf s.bufSize off)) := by
  unfold hostWrite
  cases hr : s.rstHeld
  · by_cases h : RefusedAccess s off size
    · simp [hr, refused_iff.mpr h, h, refuseAccess]
    · simp [mt refused_iff.mp h, h]
  · simp

/-- A legal access while IDLE is not refused. -/
theorem not_refused_of_idle {s : State} {off : Offset} (h : s.phase = .idle) (ho : off.toNat % 4 = 0) :
    ¬RefusedAccess s off .four := by
  simp [RefusedAccess, ho, isBusy, h]

/-! ## What a write of a target keeps -/

/-- A write never touches BUF_SIZE, RESULT without an acceptance, the request, the port or the model's own fields. -/
theorem writeTarget_frame (v : Word) (s : State) (t : Target) :
    (writeTarget v s t).bufSize = s.bufSize ∧ (writeTarget v s t).entReq = s.entReq ∧
    (writeTarget v s t).entData = s.entData ∧ (writeTarget v s t).rstHeld = s.rstHeld ∧
    (writeTarget v s t).rdata = s.rdata ∧ (writeTarget v s t).inputs = s.inputs ∧
    (writeTarget v s t).draws = s.draws := by
  cases t <;> exact ⟨rfl, rfl, rfl, rfl, rfl, rfl, rfl⟩

/-- A write of a busy-open target is a write of CTRL, a write of STATUS or nothing. -/
theorem writeTarget_of_open {v : Word} {s : State} {t : Target} (h : busyLocked t = false) :
    (t = .ctrl ∧ writeTarget v s t = writeCtrl v s) ∨
    (t = .status ∧ writeTarget v s t = writeStatus v s) ∨
    (t ≠ .ctrl ∧ t ≠ .status ∧ writeTarget v s t = s) := by
  cases t <;> simp_all [busyLocked, writeTarget]

end Sys2Proof.Machine
end

