-- ==== Sys2Proof/Laws/Commands.lean ====
section
/-!
SUPPORT. The commands: the checks as propositions, the lengths of what they write, and for each command one lemma that
says all its completion can do.
-/

namespace Sys2Proof.Machine

/-! ## The checks -/

theorem le_of_bufSizeWf {n : Nat} (h : bufSizeWf n = true) : 256 ≤ n ∧ n ≤ 32768 ∧ n % 4 = 0 := by
  simp only [bufSizeWf, Bool.and_eq_true, decide_eq_true_eq, beq_iff_eq] at h
  exact ⟨h.1.2, h.2, h.1.1⟩

theorem keyLengthOk_iff {snap : Snapshot} : keyLengthOk snap = true ↔ snap.ops.keylen.toNat = 64 := by
  simp [keyLengthOk, Config.keyBytes]

theorem fits_iff {b off n : Nat} : fits b off n = true ↔ off + n ≤ b := by simp [fits]

theorem disjoint_iff {o1 l1 o2 l2 : Nat} :
    disjoint o1 l1 o2 l2 = true ↔ l1 = 0 ∨ l2 = 0 ∨ o1 + l1 ≤ o2 ∨ o2 + l2 ≤ o1 := by
  simp [disjoint, or_assoc]

theorem regionsOk_iff {b n : Nat} {snap : Snapshot} :
    regionsOk b n snap = true ↔ RegionsAccepted b n snap.ops := by
  simp [regionsOk, RegionsAccepted, fits_iff, disjoint_iff, and_assoc]

theorem encLength_eq (snap : Snapshot) : encLength snap = blobLength snap.ops.inlen.toNat := rfl

theorem decReserved_eq (snap : Snapshot) : decReserved snap = reservedLength snap.ops.inlen.toNat := by
  simp only [decReserved, reservedLength]
  split <;> omega

theorem encRegionsOk_iff {b : Nat} {snap : Snapshot} : encRegionsOk b snap = true ↔
    RegionsAccepted b (blobLength snap.ops.inlen.toNat) snap.ops := regionsOk_iff

theorem decRegionsOk_iff {b : Nat} {snap : Snapshot} : decRegionsOk b snap = true ↔
    RegionsAccepted b (reservedLength snap.ops.inlen.toNat) snap.ops := by
  rw [decRegionsOk, decReserved_eq, regionsOk_iff]

/-! ## Lengths -/

/-- The blob of `p` plaintext bytes has `blobLength p` bytes (R133, R143). -/
theorem length_aeadEncrypt (k a pt : Bytes) {iv : Bytes} (h : iv.length = 16) :
    (aeadEncrypt k iv pt a).length = blobLength pt.length := by
  simp only [aeadEncrypt, List.length_append, length_tag, length_cbcEnc, length_pkcs7Pad, h, blobLength]
  omega

theorem badStructure_eq_false {n : Nat} : badStructure n = false ↔ 64 ≤ n ∧ (n - 48) % 16 = 0 := by
  simp [badStructure]

/-- A plaintext that DECRYPT gives is shorter than the reserved region (R134, R143). -/
theorem length_of_aeadDecrypt {k c a pt : Bytes} (h : aeadDecrypt k c a = some pt) :
    64 ≤ c.length ∧ (c.length - 48) % 16 = 0 ∧ c.length - 64 ≤ pt.length ∧
      pt.length + 1 ≤ reservedLength c.length := by
  unfold aeadDecrypt at h
  split at h
  · simp at h
  · rename_i hs
    obtain ⟨h64, h16⟩ := badStructure_eq_false.mp (by simpa using hs)
    split at h
    · simp at h
    · have hiv : (blobIv c).length = 16 := by
        simp [blobIv, length_slice, Config.ivBytes]
        omega
      have hbody : (blobBody c).length = c.length - 48 := by
        simp only [blobBody, length_slice, Config.ivBytes, Config.tagBytes]
        omega
      have hx := length_cbcDec (k := encKeyOf k) hiv (e := blobBody c) (by omega)
      obtain ⟨p, h1, hp, he⟩ := pkcs7Unpad_some (by omega) h
      have hl := congrArg List.length he
      simp only [List.length_append, length_rep] at hl
      refine ⟨h64, h16, ?_, ?_⟩
      · omega
      · simp only [reservedLength]
        omega

/-! ## What each completion can do -/

/-- `obtain_iv` answers exactly when the IV registers are the source or an answer stands on the port (R131). -/
theorem obtainIv_eq_some {snap : Snapshot} {s : State} {iv : Bytes} : obtainIv snap s = some iv ↔
    (snap.ivsrc = true ∧ iv = fileBytes snap.ops.iv) ∨
    (snap.ivsrc = false ∧ s.entReq = true ∧ ∃ d, s.entData = some d ∧ iv = lanes 16 d) := by
  unfold obtainIv
  cases snap.ivsrc <;> cases s.entReq <;> cases s.entData <;>
    simp [ivRegBytes, Config.ivBytes, eq_comm]

theorem obtainIv_eq_none {snap : Snapshot} {s : State} :
    obtainIv snap s = none ↔ snap.ivsrc = false ∧ (s.entReq = false ∨ s.entData = none) := by
  unfold obtainIv
  cases snap.ivsrc <;> cases s.entReq <;> cases s.entData <;> simp

theorem execNop_busy {s : State} {snap : Snapshot} (h : s.phase = .busy snap) :
    execNop s = .next (finish .ok 0 s) := by simp [execNop, complete, h]

theorem execZeroize_busy {s : State} {snap : Snapshot} (h : s.phase = .busy snap) :
    execZeroize s = .next (finish .ok 0
      { s with buf := Memory.zeroFill s.buf 0 s.bufSize, ops := OperandRegs.cleared }) := by
  simp [execZeroize, complete, h]

/-- The four ends of an ENCRYPT (R133). -/
theorem execEncrypt_cases {s : State} {snap : Snapshot} (h : s.phase = .busy snap) :
    (snap.ops.keylen.toNat ≠ 64 ∧ execEncrypt s = .next (finish .invalidCryptoKey 0 s)) ∨
    (snap.ops.keylen.toNat = 64 ∧
      ¬RegionsAccepted s.bufSize (blobLength snap.ops.inlen.toNat) snap.ops ∧
      execEncrypt s = .next (finish .badRegion 0 s)) ∨
    (snap.ops.keylen.toNat = 64 ∧
      RegionsAccepted s.bufSize (blobLength snap.ops.inlen.toNat) snap.ops ∧
      obtainIv snap s = none ∧ execEncrypt s = .next (requestEntropy s)) ∨
    ∃ iv, snap.ops.keylen.toNat = 64 ∧
      RegionsAccepted s.bufSize (blobLength snap.ops.inlen.toNat) snap.ops ∧
      obtainIv snap s = some iv ∧ execEncrypt s = .next (finishEncrypt iv snap s) := by
  by_cases hk : snap.ops.keylen.toNat = 64
  · by_cases hr : RegionsAccepted s.bufSize (blobLength snap.ops.inlen.toNat) snap.ops
    · refine .inr (.inr ?_)
      have hk' := keyLengthOk_iff.mpr hk
      have hr' := encRegionsOk_iff.mpr hr
      cases hi : obtainIv snap s with
      | none => exact .inl ⟨hk, hr, rfl, by simp [execEncrypt, complete, h, hk', hr', hi]⟩
      | some iv => exact .inr ⟨iv, hk, hr, rfl, by simp [execEncrypt, complete, h, hk', hr', hi]⟩
    · refine .inr (.inl ⟨hk, hr, ?_⟩)
      have hk' := keyLengthOk_iff.mpr hk
      have hr' : encRegionsOk s.bufSize snap = false := by
        simpa using mt encRegionsOk_iff.mp hr
      simp [execEncrypt, complete, h, hk', hr', raiseFailure, FailureKind.code]
  · refine .inl ⟨hk, ?_⟩
    have hk' : keyLengthOk snap = false := by simpa using mt keyLengthOk_iff.mp hk
    simp [execEncrypt, complete, h, hk', raiseFailure, FailureKind.code]

/-- The four ends of a DECRYPT (R134). -/
theorem execDecrypt_cases {s : State} {snap : Snapshot} (h : s.phase = .busy snap) :
    (snap.ops.keylen.toNat ≠ 64 ∧ execDecrypt s = .next (finish .invalidCryptoKey 0 s)) ∨
    (snap.ops.keylen.toNat = 64 ∧
      ¬RegionsAccepted s.bufSize (reservedLength snap.ops.inlen.toNat) snap.ops ∧
      execDecrypt s = .next (finish .badRegion 0 s)) ∨
    (snap.ops.keylen.toNat = 64 ∧
      RegionsAccepted s.bufSize (reservedLength snap.ops.inlen.toNat) snap.ops ∧
      aeadDecrypt (compositeKey snap) (inputOperand snap s) (aadOperand snap s) = none ∧
      execDecrypt s = .next (raiseFailure .invalidCiphertext snap s)) ∨
    ∃ pt, snap.ops.keylen.toNat = 64 ∧
      RegionsAccepted s.bufSize (reservedLength snap.ops.inlen.toNat) snap.ops ∧
      aeadDecrypt (compositeKey snap) (inputOperand snap s) (aadOperand snap s) = some pt ∧
      execDecrypt s = .next (finishDecrypt pt snap s) := by
  by_cases hk : snap.ops.keylen.toNat = 64
  · by_cases hr : RegionsAccepted s.bufSize (reservedLength snap.ops.inlen.toNat) snap.ops
    · refine .inr (.inr ?_)
      have hk' := keyLengthOk_iff.mpr hk
      have hr' := decRegionsOk_iff.mpr hr
      cases hi : aeadDecrypt (compositeKey snap) (inputOperand snap s) (aadOperand snap s) with
      | none => exact .inl ⟨hk, hr, rfl, by simp [execDecrypt, complete, h, hk', hr', hi]⟩
      | some iv => exact .inr ⟨iv, hk, hr, rfl, by simp [execDecrypt, complete, h, hk', hr', hi]⟩
    · refine .inr (.inl ⟨hk, hr, ?_⟩)
      have hk' := keyLengthOk_iff.mpr hk
      have hr' : decRegionsOk s.bufSize snap = false := by
        simpa using mt decRegionsOk_iff.mp hr
      simp [execDecrypt, complete, h, hk', hr', raiseFailure, FailureKind.code]
  · refine .inl ⟨hk, ?_⟩
    have hk' : keyLengthOk snap = false := by simpa using mt keyLengthOk_iff.mp hk
    simp [execDecrypt, complete, h, hk', raiseFailure, FailureKind.code]

/-- The failure epilogue for integrity failures (R124). -/
theorem raiseFailure_invalidCiphertext (snap : Snapshot) (s : State) :
    raiseFailure .invalidCiphertext snap s = finish .invalidCiphertext 0
      { s with buf := Memory.zeroFill s.buf snap.ops.outoff.toNat
                 (reservedLength snap.ops.inlen.toNat) } := by
  rw [← decReserved_eq]
  rfl

/-- The failure epilogue of every other kind writes no buffer byte (R124). -/
theorem raiseFailure_of_ne {kind : FailureKind} (h : kind ≠ .invalidCiphertext) (snap : Snapshot)
    (s : State) : raiseFailure kind snap s = finish kind.code 0 s := by
  cases kind <;> first | rfl | exact absurd rfl h

/-- What a finished ENCRYPT leaves in the buffer: the blob in its region, every other byte as it was (R133, R137). -/
theorem read_finishEncrypt {iv : Bytes} {snap : Snapshot} {s : State} (hi : iv.length = 16) (a : Nat) :
    Memory.read (finishEncrypt iv snap s).buf a =
      if snap.ops.outoff.toNat ≤ a ∧ a < snap.ops.outoff.toNat + blobLength snap.ops.inlen.toNat then
        (aeadEncrypt (compositeKey snap) iv (inputOperand snap s) (aadOperand snap s)).getD
          (a - snap.ops.outoff.toNat) 0
      else Memory.read s.buf a := by
  have hl : (aeadEncrypt (compositeKey snap) iv (inputOperand snap s) (aadOperand snap s)).length =
      blobLength snap.ops.inlen.toNat := by rw [length_aeadEncrypt _ _ _ hi, length_inputOperand]
  rw [finishEncrypt_buf, Memory.read_writeBytes, hl]

/-- What a finished DECRYPT leaves in the buffer: the plaintext, zeros to the end of the reserved region, every other
byte as it was (R134, R140). -/
theorem read_finishDecrypt {pt : Bytes} {snap : Snapshot} {s : State}
    (hp : pt.length ≤ reservedLength snap.ops.inlen.toNat) (a : Nat) :
    Memory.read (finishDecrypt pt snap s).buf a =
      if snap.ops.outoff.toNat ≤ a ∧
          a < snap.ops.outoff.toNat + reservedLength snap.ops.inlen.toNat then
        (pt ++ zeros (reservedLength snap.ops.inlen.toNat - pt.length)).getD (a - snap.ops.outoff.toNat) 0
      else Memory.read s.buf a := by
  rw [finishDecrypt_buf, Memory.read_zeroFill, Memory.read_writeBytes, decReserved_eq]
  by_cases h1 : snap.ops.outoff.toNat ≤ a ∧ a < snap.ops.outoff.toNat + pt.length
  · rw [if_neg (by omega), if_pos h1, if_pos (by omega), List.getD_append _ _ _ _ (by omega)]
  · by_cases h2 : snap.ops.outoff.toNat ≤ a ∧
        a < snap.ops.outoff.toNat + reservedLength snap.ops.inlen.toNat
    · rw [if_pos (by omega), if_pos h2, List.getD_append_right _ _ _ _ (by omega)]
      simp only [zeros, List.getD_eq_getElem?_getD, Memory.blank]
      rw [List.getElem?_replicate, if_pos (by omega), Option.getD_some]
    · rw [if_neg (by omega), if_neg h1, if_neg h2]

/-- Reading a whole region whose bytes are known. -/
theorem readBytes_eq_of_getD {m : Memory} {off n : Nat} {bs : Bytes} (hl : bs.length = n)
    (h : ∀ i, i < n → Memory.read m (off + i) = bs.getD i 0) : Memory.readBytes m off n = bs := by
  apply List.ext_getElem
  · simp [hl]
  · intro i h1 h2
    have := h i (by omega)
    simpa [Memory.readBytes, List.getD_eq_getElem?_getD, h2] using this

end Sys2Proof.Machine
end

