-- ==== Sys2Proof/Laws/Agents.lean ====
section
/-!
SUPPORT. The agents: for each of their steps one lemma that says all it can do, and the same for a step of the block.
-/

namespace Sys2Proof.Machine

theorem isBusy_iff {s : State} : isBusy s = true ↔ ∃ snap, s.phase = .busy snap := by
  unfold isBusy
  cases s.phase <;> simp

theorem isBusy_eq_false {s : State} : isBusy s = false ↔ s.phase = .idle := by
  unfold isBusy
  cases s.phase <;> simp

theorem idle_of_not_busy {s : State} (h : ∀ snap, s.phase ≠ .busy snap) : s.phase = .idle := by
  cases hp : s.phase with
  | idle => rfl
  | busy snap => exact absurd hp (h snap)

/-! ## The step -/

theorem step_cons {s : State} {e : Input} {rest : List Input} (h : s.inputs = e :: rest) :
    step s = applyInput e { s with inputs := rest } := by simp [step, scheduledStep, h]

theorem step_nil {s : State} (h : s.inputs = []) : step s = sequencerTurn s := by
  simp [step, scheduledStep, h]

/-! ## The sequencer -/

theorem sequencerTurn_idle {s : State} (h : s.phase = .idle) : sequencerTurn s = .next s := by
  simp [sequencerTurn, h]

theorem sequencerTurn_command {s : State} {snap : Snapshot} {i : Instr} (h : s.phase = .busy snap)
    (hi : decode snap.cmd = .command i) : sequencerTurn s = exec i s := by
  simp [sequencerTurn, h, hi]

theorem sequencerTurn_illegal {s : State} {snap : Snapshot} {why : IllegalReason}
    (h : s.phase = .busy snap) (hi : decode snap.cmd = .illegal why) :
    sequencerTurn s = .next (finish .illegalCommand 0 s) := by
  simp [sequencerTurn, h, hi, raiseFailure, FailureKind.code]

/-- `t` is a completion of the command of `snap` from `s`: a finish with a code that is not NONE, after a change of the
buffer that keeps its form and, for ZEROIZE, of the operands (R124). -/
def Completes (s : State) (snap : Snapshot) (t : State) : Prop :=
  ∃ code n buf ops, t = finish code n { s with buf := buf, ops := ops } ∧
    code ≠ .none ∧ (code ≠ .ok → n = 0) ∧ n ≤ s.bufSize ∧
    (Memory.wf s.buf = true → Memory.wf buf = true) ∧
    (Memory.below s.bufSize s.buf = true → Memory.below s.bufSize buf = true) ∧
    (ops = s.ops ∨ (decode snap.cmd = .command .zeroize ∧ ops = OperandRegs.cleared))

theorem completes_finish {s : State} {snap : Snapshot} {code : ResultCode} (h : code ≠ .none) :
    Completes s snap (finish code 0 s) :=
  ⟨code, 0, s.buf, s.ops, rfl, h, fun _ => rfl, Nat.zero_le _, id, id, .inl rfl⟩

theorem completes_finishEncrypt {s : State} {snap : Snapshot} {iv : Bytes} (hi : iv.length = 16)
    (hr : RegionsAccepted s.bufSize (blobLength snap.ops.inlen.toNat) snap.ops) :
    Completes s snap (finishEncrypt iv snap s) := by
  have hf := hr.2.2.1
  refine ⟨.ok, encLength snap, _, s.ops, rfl, by simp, by simp, ?_, Memory.wf_writeBytes _ _,
    fun h => Memory.below_writeBytes _ h ?_, .inl rfl⟩
  · rw [encLength_eq]
    omega
  · rw [length_aeadEncrypt _ _ _ hi, length_inputOperand]
    exact hf

theorem completes_invalidCiphertext {s : State} {snap : Snapshot} :
    Completes s snap (raiseFailure .invalidCiphertext snap s) :=
  ⟨.invalidCiphertext, 0, _, s.ops, rfl, by simp, by simp, Nat.zero_le _, Memory.wf_zeroFill _ _,
    Memory.below_zeroFill _ _, .inl rfl⟩

theorem completes_finishDecrypt {s : State} {snap : Snapshot} {pt : Bytes}
    (hp : pt.length ≤ reservedLength snap.ops.inlen.toNat)
    (hr : RegionsAccepted s.bufSize (reservedLength snap.ops.inlen.toNat) snap.ops) :
    Completes s snap (finishDecrypt pt snap s) := by
  have hf := hr.2.2.1
  refine ⟨.ok, pt.length, _, s.ops, rfl, by simp, by simp, by omega,
    fun h => Memory.wf_zeroFill _ _ (Memory.wf_writeBytes _ _ h),
    fun h => Memory.below_zeroFill _ _ (Memory.below_writeBytes _ h (by omega)), .inl rfl⟩

theorem completes_zeroize {s : State} {snap : Snapshot} (h : decode snap.cmd = .command .zeroize) :
    Completes s snap (finish .ok 0
      { s with buf := Memory.zeroFill s.buf 0 s.bufSize, ops := OperandRegs.cleared }) :=
  ⟨.ok, 0, _, _, rfl, by simp, by simp, Nat.zero_le _, Memory.wf_zeroFill _ _, Memory.below_zeroFill _ _,
    .inr ⟨h, rfl⟩⟩

/-- All a turn of the sequencer can do while BUSY = 1: complete the command, or wait for the entropy source. -/
theorem sequencerTurn_busy {s : State} {snap : Snapshot} (h : s.phase = .busy snap) :
    (∃ t, sequencerTurn s = .next t ∧ Completes s snap t) ∨
    (AwaitsEntropy s snap ∧ (s.entReq = false ∨ s.entData = none) ∧
      sequencerTurn s = .next (requestEntropy s)) := by
  cases hd : decode snap.cmd with
  | illegal why => exact .inl ⟨_, sequencerTurn_illegal h hd, completes_finish (by simp)⟩
  | command i =>
    rw [sequencerTurn_command h hd]
    cases i with
    | nop => exact .inl ⟨_, execNop_busy h, completes_finish (by simp)⟩
    | zeroize => exact .inl ⟨_, execZeroize_busy h, completes_zeroize hd⟩
    | encrypt =>
      rcases execEncrypt_cases h with ⟨-, he⟩ | ⟨-, -, he⟩ | ⟨hk, hr, hi, he⟩ | ⟨iv, -, hr, hi, he⟩
      · exact .inl ⟨_, he, completes_finish (by simp)⟩
      · exact .inl ⟨_, he, completes_finish (by simp)⟩
      · obtain ⟨h1, h2⟩ := obtainIv_eq_none.mp hi
        exact .inr ⟨⟨hd, h1, hk, hr⟩, h2, he⟩
      · exact .inl ⟨_, he, completes_finishEncrypt (length_of_obtainIv hi) hr⟩
    | decrypt =>
      rcases execDecrypt_cases h with ⟨-, he⟩ | ⟨-, -, he⟩ | ⟨-, -, -, he⟩ | ⟨pt, -, hr, hp, he⟩
      · exact .inl ⟨_, he, completes_finish (by simp)⟩
      · exact .inl ⟨_, he, completes_finish (by simp)⟩
      · exact .inl ⟨_, he, completes_invalidCiphertext⟩
      · have hl := (length_of_aeadDecrypt hp).2.2.2
        rw [length_inputOperand] at hl
        exact .inl ⟨_, he, completes_finishDecrypt (by omega) hr⟩

/-! ## The entropy source -/

/-- All an entropy answer can do (40 R131, 70 R284). -/
theorem entropyAnswer_cases (d : EntropyWord) (s : State) :
    ((s.phase = .idle ∨ s.entReq = false) ∧ entropyAnswer d s = .next s) ∨
    ∃ snap, s.phase = .busy snap ∧ s.entReq = true ∧
      entropyAnswer d s = sequencerTurn { s with entData := some d } := by
  unfold entropyAnswer
  cases hp : s.phase <;> cases hr : s.entReq <;> simp [isBusy, hp]

/-! ## Reset -/

/-- The bytes an aborted command could write lie in the buffer (70 R282). -/
theorem abortedRegion_fits (s : State) :
    (abortedRegion s).1 + (abortedRegion s).2 ≤ s.bufSize := by
  unfold abortedRegion
  split
  · simp
  · split
    · simp
    · split
      · rename_i h
        simp only [Bool.and_eq_true] at h
        exact (encRegionsOk_iff.mp h.2).2.2.1
      · simp
    · split
      · rename_i h
        simp only [Bool.and_eq_true] at h
        rw [decReserved_eq]
        exact (decRegionsOk_iff.mp h.2).2.2.1
      · simp
    · simp
    · simp

@[simp] theorem length_freeBytes (first n : Nat) : (freeBytes first n).length = n := by
  simp [freeBytes]

theorem getD_freeBytes {first n i : Nat} (h : i < n) :
    (freeBytes first n).getD i 0 = Config.freeByte (first + i) := by
  simp [freeBytes, List.getD_eq_getElem?_getD, h]

/-- What a warm reset leaves in the buffer (70 R280, R282). -/
theorem read_warmReset (s : State) (a : Nat) : Memory.read (warmReset s).buf a =
    if (abortedRegion s).1 ≤ a ∧ a < (abortedRegion s).1 + (abortedRegion s).2 then
      Config.freeByte (s.draws + (a - (abortedRegion s).1))
    else Memory.read s.buf a := by
  rw [warmReset_buf, Memory.read_writeBytes, length_freeBytes]
  split
  · rw [getD_freeBytes (by omega)]
  · rfl

/-! ## One step of the block -/

/-- Several steps, one at a time. -/
theorem run_succ {n : Nat} {s t : State} (h : step s = .next t) :
    Host.Core.run Sys2Proof.core (n + 1) s = Host.Core.run Sys2Proof.core n t := by
  have h' : Sys2Proof.core.step s = .next t := h
  simp only [Host.Core.run, h']

/-- The kinds of step. What each kind does is all a step can do. -/
inductive StepKind (s t : State) : Prop
  /-- A reset (70 R280). -/
  | reset (isReset : nextIsReset s = true) (registers : RegistersReset t)
  /-- A refused host access (20 R76, R78). -/
  | refused (off : Offset) (size : AccessSize) (rest : List Input) (answer : Option Word)
      (access : nextAccesses s off size) (released : s.rstHeld = false) (refusal : RefusedAccess s off size)
      (after : t = { s with inputs := rest, accerr := true, rdata := answer })
  /-- A host write that is not refused (20 R70). -/
  | write (off : Offset) (v : Word) (rest : List Input) (next : s.inputs = .hostWrite off .four v :: rest)
      (released : s.rstHeld = false) (accepted : ¬RefusedAccess s off .four)
      (after : t = writeTarget v { s with inputs := rest, rdata := none } (targetOf s.bufSize off))
  /-- A completion (40 R124). -/
  | completes (snap : Snapshot) (code : ResultCode) (n : Nat) (buf : Memory) (ops : OperandRegs)
      (rest : List Input) (busy : s.phase = .busy snap) (hasCode : code ≠ .none)
      (operands : ops = s.ops ∨ decode snap.cmd = .command .zeroize)
      (noReset : nextIsReset s = false) (noAccess : ∀ off size, ¬nextAccesses s off size)
      (after : t = finish code n { s with buf := buf, ops := ops, inputs := rest })
  /-- The wait for the entropy source (40 R131). -/
  | waits (snap : Snapshot) (rest : List Input) (busy : s.phase = .busy snap)
      (noReset : nextIsReset s = false) (noAccess : ∀ off size, ¬nextAccesses s off size)
      (after : t = requestEntropy { s with inputs := rest })
  /-- Everything else: a read, an access while `rst_n` is held, a release, a turn with nothing to do. -/
  | quiet (rest : List Input) (answer : Option Word) (held : Bool)
      (noReset : nextIsReset s = false)
      (noRefusal : ∀ off size, nextAccesses s off size → s.rstHeld = false → ¬RefusedAccess s off size)
      (after : t = { s with inputs := rest, rdata := answer, rstHeld := held })

/-- The kind of a turn of the sequencer, with an entropy answer or without. -/
theorem stepKind_sequencerTurn {s t : State} {rest : List Input} {answer : Option EntropyWord}
    (hn : nextIsReset s = false) (hno : ∀ off size, ¬nextAccesses s off size)
    (ha : answer = s.entData ∨ isBusy s = true)
    (e : sequencerTurn { s with inputs := rest, entData := answer } = .next t) : StepKind s t := by
  cases hp : s.phase with
  | idle =>
    have ha' : answer = s.entData := by
      rcases ha with h | h
      · exact h
      · rw [isBusy_eq_false.mpr hp] at h
        cases h
    subst ha'
    rw [sequencerTurn_idle (s := { s with inputs := rest }) hp] at e
    cases e
    exact .quiet rest s.rdata s.rstHeld hn (fun a b c => absurd c (hno a b)) rfl
  | busy snap =>
    rcases sequencerTurn_busy (s := { s with inputs := rest, entData := answer }) hp with
      ⟨u, e', code, n, buf, ops, rfl, hc, -, -, -, -, ho⟩ | ⟨-, -, e'⟩ <;> rw [e'] at e <;> cases e
    · exact .completes snap code n buf ops rest hp hc (ho.imp id And.left) hn hno rfl
    · exact .waits snap rest hp hn hno rfl

/-- All a step can do. -/
theorem step_cases {s t : State} (e : step s = .next t) : StepKind s t := by
  cases hi : s.inputs with
  | nil =>
    rw [step_nil hi] at e
    exact stepKind_sequencerTurn (rest := s.inputs) (answer := s.entData) (by simp [nextIsReset, hi])
      (by simp [nextAccesses, hi]) (.inl rfl) e
  | cons x rest =>
    rw [step_cons hi] at e
    cases x with
    | hostRead off size =>
      cases e
      rcases hostRead_cases off size { s with inputs := rest } with ⟨a, e'⟩ | ⟨a, hx, e'⟩ | ⟨a, hx, e'⟩ <;>
        rw [e']
      · exact .quiet rest _ s.rstHeld (by simp [nextIsReset, hi])
          (fun _ _ _ h => by have := a.symm.trans h; simp at this) rfl
      · exact .refused off size rest _ (.inl ⟨rest, hi⟩) a hx rfl
      · refine .quiet rest _ s.rstHeld (by simp [nextIsReset, hi]) (fun o z hh _ => ?_) rfl
        rcases hh with ⟨r, h⟩ | ⟨v, r, h⟩ <;> rw [hi] at h <;> cases h
        exact hx
    | hostWrite off size v =>
      cases e
      rcases hostWrite_cases off size v { s with inputs := rest } with
        ⟨a, e'⟩ | ⟨a, hx, e'⟩ | ⟨a, hx, e'⟩ <;> rw [e']
      · exact .quiet rest _ s.rstHeld (by simp [nextIsReset, hi])
          (fun _ _ _ h => by have := a.symm.trans h; simp at this) rfl
      · exact .refused off size rest _ (.inr ⟨v, rest, hi⟩) a hx rfl
      · obtain rfl : size = .four := by
          by_contra h
          exact hx (.inl h)
        exact .write off v rest hi a hx rfl
    | sequencer =>
      exact stepKind_sequencerTurn (rest := rest) (answer := s.entData) (by simp [nextIsReset, hi])
        (by simp [nextAccesses, hi]) (.inl rfl) e
    | entropy d =>
      simp only [applyInput] at e
      rcases entropyAnswer_cases d { s with inputs := rest } with ⟨-, h⟩ | ⟨snap, hp, -, h⟩ <;> rw [h] at e
      · cases e
        exact .quiet rest s.rdata s.rstHeld (by simp [nextIsReset, hi])
          (fun a b c => by simp [nextAccesses, hi] at c) rfl
      · exact stepKind_sequencerTurn (rest := rest) (answer := some d) (by simp [nextIsReset, hi])
          (by simp [nextAccesses, hi]) (.inr (isBusy_iff.mpr ⟨snap, hp⟩)) e
    | assertReset =>
      cases e
      exact .reset (by simp [nextIsReset, hi]) (by unfold RegistersReset; simp)
    | releaseReset =>
      cases e
      exact .quiet rest s.rdata false (by simp [nextIsReset, hi])
        (fun a b c => by simp [nextAccesses, hi] at c) rfl
    | powerOn b =>
      cases e
      exact .reset (by simp [nextIsReset, hi]) (by unfold RegistersReset; simp)

end Sys2Proof.Machine
end

