-- ==== Sys2Proof/Laws/Flags.lean ====
section
/-!
SUPPORT. The control and status words bit by bit (spec 10 R36, R37, R42).
-/

namespace Sys2Proof.Machine

/-- Four flags in the low bits of a word. -/
theorem getLsbD_fourFlags (a b c d : Bool) (i : Nat) :
    ((0 : BitVec 28) ++ BitVec.ofBool d ++ BitVec.ofBool c ++ BitVec.ofBool b ++ BitVec.ofBool a).getLsbD i =
      match i with
      | 0 => a
      | 1 => b
      | 2 => c
      | 3 => d
      | _ => false := by
  rcases Nat.lt_or_ge i 32 with h | h
  · cases a <;> cases b <;> cases c <;> cases d <;> interval_cases i <;> rfl
  · rw [BitVec.getLsbD_of_ge _ _ h]
    obtain ⟨j, rfl⟩ : ∃ j, i = j + 4 := ⟨i - 4, by omega⟩
    rfl

/-- STATUS: BUSY, DONE, ACCERR and IRQPEND in bits 0 to 3, nothing above (R37). -/
theorem getLsbD_statusWord (s : State) (i : Nat) : (statusWord s).getLsbD i =
    match i with
    | 0 => isBusy s
    | 1 => s.done
    | 2 => s.accerr
    | 3 => irq s
    | _ => false := getLsbD_fourFlags _ _ _ _ i

/-- CTRL: IVSRC and IE in bits 0 and 1, nothing above (R36). -/
theorem getLsbD_ctrlWord (s : State) (i : Nat) : (ctrlWord s).getLsbD i =
    match i with
    | 0 => s.ivsrc
    | 1 => s.ie
    | _ => false := by
  unfold ctrlWord
  rcases Nat.lt_or_ge i 32 with h | h
  · cases s.ie <;> cases s.ivsrc <;> interval_cases i <;> rfl
  · rw [BitVec.getLsbD_of_ge _ _ h]
    obtain ⟨j, rfl⟩ : ∃ j, i = j + 4 := ⟨i - 4, by omega⟩
    rfl

end Sys2Proof.Machine
end

