-- ==== Sys2Proof/Laws/PerInstr.lean ====
section
/-!
SUPPORT. Statements made for each command, one lemma for each constructor of Instr.
-/

namespace Sys2Proof.Laws.EncodesLegally

/-- The word of the command is a word of the opcode map (spec 30 R101). -/
def Statement (i : Instr) : Prop := commandWordWf (encode i) = true

theorem nop : Statement .nop := by unfold Statement; decide

theorem encrypt : Statement .encrypt := by unfold Statement; decide

theorem decrypt : Statement .decrypt := by unfold Statement; decide

theorem zeroize : Statement .zeroize := by unfold Statement; decide

end Sys2Proof.Laws.EncodesLegally
end

