-- ==== Sys2Proof/Tests/Slice0.lean ====
section
/-!
SUPPORT. Tests on fixed values, each with the vector of spec/95 or the rule its expected value comes from. The states
that meet the hypotheses of the obligations are in Tests/Witnesses.lean.
-/

-- One declaration at a time: the kernel evaluates long tables here, and what waits for it holds a thread each.
set_option Elab.async false

namespace Sys2Proof.Tests

open Sys2Proof.Machine

/-! ## Helpers -/

/-- The state of an outcome. -/
def after (o : Host.Outcome State Fault Refusal) : State :=
  match o with
  | .next t => t
  | .fault _ => State.reset
  | .refused _ => State.reset

/-- The outcome is a next state. -/
def isNext (o : Host.Outcome State Fault Refusal) : Bool :=
  match o with
  | .next _ => true
  | .fault _ => false
  | .refused _ => false

theorem eq_next_after {o : Host.Outcome State Fault Refusal} (h : isNext o = true) : o = .next (after o) := by
  cases o with
  | next t => rfl
  | fault r => simp [isNext] at h
  | refused r => simp [isNext] at h

/-- The key `00 01 .. 3f` and the IV of 95. -/
def testKey : Bytes := (List.range 64).map fun i => BitVec.ofNat 8 i

def testIv : Bytes := beBytes 16 0x1af38c2dc2b96ffdd86694092341bc04

/-- Operand registers with that key and IV, KEYLEN 64 and no AAD. -/
def operands (inoff inlen outoff : Word) : OperandRegs where
  keylen := 64
  aadoff := 0
  aadlen := 0
  inoff := inoff
  inlen := inlen
  outoff := outoff
  key := Vector.ofFn fun i => wordAt testKey (4 * i.val)
  iv := Vector.ofFn fun i => wordAt testIv (4 * i.val)

/-- A released idle block with a buffer of 256 bytes. -/
def idleState (o : OperandRegs) (buf : Bytes) (inputs : List Input) : State :=
  { State.reset with
    bufSize := 256, ops := o, ivsrc := true
    buf := Memory.writeBytes [] 0 buf, inputs := inputs }

/-- The snapshot of a command with the IV registers as IV source. -/
def snapOf (v : Word) (o : OperandRegs) : Snapshot := { cmd := v, ivsrc := true, ops := o }

/-- The same block with that command in flight. -/
def busyState (v : Word) (o : OperandRegs) (buf : Bytes) (inputs : List Input) : State :=
  { idleState o buf inputs with phase := .busy (snapOf v o) }

/-- The snapshot and the state of an ENCRYPT of nothing that waits for the entropy source. -/
def waitSnap : Snapshot := { cmd := 1, ivsrc := false, ops := operands 0 0 0 }

def waitState (inputs : List Input) : State :=
  { idleState (operands 0 0 0) [] inputs with phase := .busy waitSnap, ivsrc := false, entReq := true }

/-- The blob S9 (95 section 1): the empty plaintext with no AAD. -/
def blobEmpty : Bytes := beBytes 64
  0x1af38c2dc2b96ffdd86694092341bc04b9bfa793107e7cb6304f6146606c2374099bdf3443ffda037f84c201e7b0d1439db3c35d2655d15ad4383fae2cbc9dda

/-- The blob C22: 14 zero bytes, padded by `02 02`. -/
def blobPadTwo : Bytes := beBytes 64
  0x1af38c2dc2b96ffdd86694092341bc04ea1b5760b6e89374c4dcde6cefb816f9a4cee99d5992178a159eaa170d8869262c0ad972f2d0ed178e36f8efef9cbbdb

/-- The blob C19: a right tag over a body whose padding is bad. -/
def blobBadPad : Bytes := beBytes 64
  0x1af38c2dc2b96ffdd86694092341bc0456db62166ed5752c52628b6661a0fb30545c7340e619124eb8f06cacb796d1cef69938563b6f5828573d1be3123cba58

/-! ## Well-formedness: every check refuses an ill-formed value (30 R101, 00 R10) -/

theorem test_wf_rejects_reserved_bits : commandWordWf 0x00000011 = false := by decide

theorem test_wf_rejects_reserved_opcode : commandWordWf 0x00000004 = false := by decide

theorem test_wf_bufSize : bufSizeWf 256 = true ∧ bufSizeWf 32768 = true ∧ bufSizeWf 16384 = true ∧
    bufSizeWf 258 = false ∧ bufSizeWf 252 = false ∧ bufSizeWf 32772 = false := by decide

theorem test_wf_commands : Instr.wf .nop = true ∧ Instr.wf .encrypt = true ∧ Instr.wf .decrypt = true ∧
    Instr.wf .zeroize = true := by decide

/-! ## Decoding: words written out from RSVD [31:4] and OPC [3:0] (30 R100, R101) -/

theorem test_decode_nop : decode 0b00000000000000000000000000000000 = .command .nop := by decide

theorem test_decode_encrypt : decode 0b00000000000000000000000000000001 = .command .encrypt := by decide

theorem test_decode_decrypt : decode 0b00000000000000000000000000000010 = .command .decrypt := by decide

theorem test_decode_zeroize : decode 0b00000000000000000000000000000011 = .command .zeroize := by decide

theorem test_decode_illegal : decode 0x0000000f = .illegal .reservedOpcode ∧
    decode 0x00000010 = .illegal .reservedBits ∧ decode 0x80000001 = .illegal .reservedBits := by decide

theorem test_decodeTableWord : decodeTableWord 32 1 = some .encrypt ∧ decodeTableWord 32 0x11 = none ∧
    decodeTableWord 32 0x100000001 = none := by decide

/-! ## The datapath (95 sections 1 to 5) -/

/-- A1, A2 (FIPS 197 C.3). -/
theorem test_aes_block :
    aesEnc (testKey.take 32) (beBytes 16 0x00112233445566778899aabbccddeeff) =
      beBytes 16 0x8ea2b7ca516745bfeafc49904b496089 ∧
    aesDec (testKey.take 32) (beBytes 16 0x8ea2b7ca516745bfeafc49904b496089) =
      beBytes 16 0x00112233445566778899aabbccddeeff := by decide +kernel

/-- A5, A6. -/
theorem test_sbox : sbox 0x00 = 0x63 ∧ sbox 0xff = 0x16 ∧ sbox 0x53 = 0xed ∧ invSbox 0xed = 0x53 ∧
    invSbox 0x63 = 0x00 := by decide

/-- Key expansion of `20 .. 3f`: `w[8]`, `w[12]` and `w[59]`. -/
theorem test_keyExpansion :
    (keyExpansion (testKey.drop 32))[8]? = some ⟨0x06, 0x93, 0x57, 0xc8⟩ ∧
    (keyExpansion (testKey.drop 32))[12]? = some ⟨0xc7, 0x06, 0xaf, 0xda⟩ ∧
    (keyExpansion (testKey.drop 32))[59]? = some ⟨0x2d, 0x3a, 0x23, 0xb0⟩ := by decide +kernel

/-- The CBC vector of 16 bytes (95 section 3): two blocks. -/
theorem test_cbc : cbcEnc (testKey.drop 32) testIv (pkcs7Pad (testKey.take 16)) =
    beBytes 32 0x695b5ee53f9867521c0957772fb296dadfca6edb62743509bbb3733591e0bf03 := by decide +kernel

theorem test_unpad : pkcs7Unpad (beBytes 16 0x01) = some (zeros 15) ∧
    pkcs7Unpad (rep 0x10 16) = some [] ∧ pkcs7Unpad (zeros 16) = none ∧
    pkcs7Unpad (beBytes 16 0x0302) = none ∧ pkcs7Unpad (beBytes 16 0x11) = none ∧
    pkcs7Unpad (beBytes 16 0x10) = none := by decide +kernel

/-- The primes below 410, the eightieth of which is the last. -/
def primes : List Nat :=
  (List.range 410).filter fun n => decide (2 ≤ n) && (List.range 21).all fun d => decide (d < 2 ∨ d = n ∨ n % d ≠ 0)

/-- R212 in its own words: `K_t` is the first 64 bits of the fractional part of the cube root of prime `t`. With the
integer part `q` in front it is the root of `p * 2^192` rounded down. -/
theorem test_roundConstants_are_cube_roots : primes.length = 80 ∧ roundConstants.length = 80 ∧
    ((primes.zip roundConstants).all fun (p, k) => (List.range 8).any fun q =>
      decide ((q * 2 ^ 64 + k.toNat) ^ 3 ≤ p * 2 ^ 192 ∧ p * 2 ^ 192 < (q * 2 ^ 64 + k.toNat + 1) ^ 3)) = true := by
  decide +kernel

/-- "abc" (FIPS 180-4). -/
theorem test_sha512 : sha512 [0x61, 0x62, 0x63] = beBytes 64
    0xddaf35a193617abacc417349ae20413112e6fa4e89a97ea20a9eeee64b55d39a2192992a274fc1a836ba3c23a3feebbd454d4423643ce80e2a9ac94fa54ca49f := by
  decide +kernel

/-- RFC 4231 TC1: a key of 20 bytes, "Hi There". -/
theorem test_hmac : hmac512 (rep 0x0b 20) (beBytes 8 0x4869205468657265) = beBytes 64
    0x87aa7cdea5ef619d4ff0b4241a1d6cb02379f4e2ce4ec2787ad0b30545e17cdedaa833b7d6b8a702038b274eaea3f4e4be9d914eeb61f1702e696c203a126854 := by
  decide +kernel

theorem test_lengthBlock : aadLengthBlock (zeros 42) = beBytes 8 0x150 ∧ aadLengthBlock [] = zeros 8 := by
  decide +kernel

theorem test_comparator : ctEq (zeros 32) (zeros 32) = true ∧ ctEq (zeros 32) (zeros 31 ++ [1]) = false ∧
    ctEq (zeros 32) (0x80 :: zeros 31) = false ∧ ctEq (rep 0xff 32) (zeros 32) = false := by decide +kernel

/-! ## The commands, one step each (95 section 7) -/

/-- C1 in a buffer of 256 bytes: the blob S9 at its end. -/
theorem test_encrypt_blob :
    let t := after (step (busyState 1 (operands 0 0 192) [] []))
    Memory.readBytes t.buf 192 64 = blobEmpty ∧ t.outlen = 64 ∧ t.result = .ok ∧ t.done = true := by
  decide +kernel

/-- C6: the output overlaps the input. -/
theorem test_encrypt_overlap :
    let t := after (step (busyState 1 (operands 0 16 15) [] []))
    t.result = .badRegion ∧ t.outlen = 0 ∧ t.buf = [] := by decide +kernel

/-- C22: 14 bytes of plaintext, then zeros over what stood there. -/
theorem test_decrypt_blob :
    let t := after (step (busyState 2 (operands 0 64 64) (blobPadTwo ++ rep 0xaa 20) []))
    Memory.readBytes t.buf 64 20 = zeros 16 ++ rep 0xaa 4 ∧ t.outlen = 14 ∧ t.result = .ok := by
  decide +kernel

/-- C19: the padding fails; the reserved region is zero-filled and no more. -/
theorem test_decrypt_bad_padding :
    let t := after (step (busyState 2 (operands 0 64 64) (blobBadPad ++ rep 0xaa 20) []))
    Memory.readBytes t.buf 64 20 = zeros 16 ++ rep 0xaa 4 ∧ t.outlen = 0 ∧ t.result = .invalidCiphertext := by
  decide +kernel

/-- C16: NOP does not look at KEYLEN. -/
theorem test_nop :
    let t := after (step (busyState 0 OperandRegs.cleared [5] []))
    t.result = .ok ∧ t.outlen = 0 ∧ t.phase = .idle ∧ Memory.read t.buf 0 = 5 := by decide +kernel

/-- C26: ZEROIZE; CTRL is kept. -/
theorem test_zeroize :
    let t := after (step (busyState 3 (operands 1 2 3) (rep 0xaa 20) []))
    t.buf = [] ∧ t.ops = OperandRegs.cleared ∧ t.ivsrc = true ∧ t.result = .ok := by decide +kernel

/-- C18: decoding comes before the key check. -/
theorem test_illegal :
    (after (step (busyState 4 OperandRegs.cleared [] []))).result = .illegalCommand := by decide +kernel

/-- R131: `IV[j] = ent_data[8j+7:8j]`; the first bytes of the blob are the answer's low bytes. -/
theorem test_entropy_iv : Memory.readBytes
    (after (step (waitState [.entropy 0x0f0e0d0c0b0a09080706050403020100]))).buf 0 16 = testKey.take 16 := by
  decide +kernel

/-! ## The host port (95 section 8) -/

/-- H3. -/
theorem test_ctrl : (hostRead 0x00C .four (hostWrite 0x00C .four 0xFFFFFFFF State.reset)).rdata = some 3 := by
  decide +kernel

/-- H4: KEY0 reads 0 and the key file holds the bytes in little-endian lanes. -/
theorem test_key : (hostRead 0x040 .four (hostWrite 0x040 .four 0x12345678 State.reset)).rdata = some 0 ∧
    (fileBytes (hostWrite 0x040 .four 0x12345678 State.reset).ops.key).take 4 = [0x78, 0x56, 0x34, 0x12] := by
  decide +kernel

/-- H5, H6. -/
theorem test_illegal_access : (hostRead 0x011 .four State.reset).accerr = true ∧
    (hostRead 0x011 .four State.reset).rdata = some 0 ∧
    (hostWrite 0x8000 .one 0xAB State.reset).accerr = true ∧
    (hostWrite 0x8000 .one 0xAB State.reset).buf = [] := by decide +kernel

/-- H7, H8, H9. -/
theorem test_busy_access :
    let s := busyState 1 (operands 0 0 0) [7] []
    (hostRead 0x8000 .four s).rdata = some 0 ∧ (hostRead 0x8000 .four s).accerr = true ∧
    (hostWrite 0x01C .four 0 s).phase = s.phase ∧ (hostWrite 0x01C .four 0 s).accerr = true ∧
    (hostRead 0x010 .four s).rdata = some 1 ∧ (hostRead 0x010 .four s).accerr = false := by decide +kernel

/-- H10. -/
theorem test_reserved : (hostRead 0x038 .four State.reset).rdata = some 0 ∧
    (hostRead 0x100 .four State.reset).rdata = some 0 ∧
    hostWrite 0x0FC .four 1 State.reset = State.reset := by decide +kernel

/-- H11, H12. -/
theorem test_status :
    let s := { State.reset with done := true, accerr := true }
    (hostWrite 0x010 .four 2 s).done = false ∧ (hostWrite 0x010 .four 2 s).accerr = true ∧
    statusWord { State.reset with done := true, ie := true } = 0x0000000A := by decide +kernel

/-- H14. -/
theorem test_window : (hostRead 0x8000 .four (idleState (operands 0 0 0) [1, 2, 3, 4] [])).rdata =
    some 0x04030201 := by decide +kernel

end Sys2Proof.Tests
end

