-- ==== Sys2Proof/Tests/Witnesses.lean ====
section
/-!
SUPPORT. For every obligation that has hypotheses, a concrete state and operands that meet them, for each clause and at
the ends of its ranges. The theorem `witness_<Name>` belongs to `Obligations.<Name>`.
-/

-- One declaration at a time: the kernel evaluates long tables here, and what waits for it holds a thread each.
set_option Elab.async false

namespace Sys2Proof.Tests

open Sys2Proof.Machine

/-! ## Helpers -/

/-- Operands with AAD at the very end of a buffer of 256 bytes, and an output that ends at its end. -/
def edgeOps (inlen outoff : Word) : OperandRegs := { operands 0 inlen outoff with aadoff := 256 }

theorem edge_encrypt_accepted : RegionsAccepted 256 (blobLength 0) (edgeOps 0 192) := by
  unfold RegionsAccepted; decide

theorem edge_decrypt_accepted : RegionsAccepted 256 (reservedLength 64) (edgeOps 64 240) := by
  unfold RegionsAccepted; decide

theorem short_decrypt_accepted : RegionsAccepted 256 (reservedLength 47) (edgeOps 47 256) := by
  unfold RegionsAccepted; decide

theorem encrypt_not_accepted : ¬RegionsAccepted 256 (blobLength 0) (edgeOps 0 193) := by
  unfold RegionsAccepted; decide

theorem decrypt_not_accepted : ¬RegionsAccepted 256 (reservedLength 64) (edgeOps 64 63) := by
  unfold RegionsAccepted; decide

theorem waitState_awaits (inputs : List Input) : AwaitsEntropy (waitState inputs) waitSnap := by
  refine ⟨by decide, rfl, by decide, ?_⟩
  show RegionsAccepted 256 (blobLength 0) (operands 0 0 0)
  unfold RegionsAccepted
  decide

/-- A waiting ENCRYPT is a consistent state. -/
theorem waitState_consistent (inputs : List Input) : Consistent (waitState inputs) where
  bufSize_legal := test_wf_bufSize.1
  buf_wf := rfl
  buf_below := rfl
  port_clear := rfl
  busy_record := fun _ _ => ⟨rfl, rfl, rfl⟩
  busy_operands := fun snap h => by
    obtain rfl : snap = waitSnap := by simpa [waitState] using h.symm
    rfl
  request := fun _ => ⟨waitSnap, rfl, waitState_awaits inputs⟩
  done_record := fun h => Bool.noConfusion h
  outlen_ok := fun _ => rfl
  outlen_fits := Nat.zero_le _
  held := fun h => Bool.noConfusion h

/-- The blob C22 has a right tag and a good padding, with 14 bytes of plaintext (95 section 7). -/
theorem blobPadTwo_parts : slice blobPadTwo 32 64 =
      tag (slice testKey 0 32) [] (slice blobPadTwo 0 16) (slice blobPadTwo 16 32) ∧
    pkcs7Unpad (cbcDec (slice testKey 32 64) (slice blobPadTwo 0 16) (slice blobPadTwo 16 32)) =
      some (zeros 14) := by decide +kernel

/-- The blob C19 has a bad padding (95 section 7). -/
theorem blobBadPad_padding : pkcs7Unpad (cbcDec (slice testKey 32 64) (slice blobBadPad 0 16)
    (slice blobBadPad 16 32)) = none := by decide +kernel

theorem blobPadTwo_decrypts : aeadDecrypt testKey blobPadTwo [] = some (zeros 14) := by
  have hs : badStructure blobPadTwo.length = false := by decide +kernel
  have hi : blobIv blobPadTwo = slice blobPadTwo 0 16 := by decide +kernel
  have hb : blobBody blobPadTwo = slice blobPadTwo 16 32 := by decide +kernel
  have ht : blobTag blobPadTwo = slice blobPadTwo 32 64 := by decide +kernel
  have hc : ctEq (slice blobPadTwo 32 64) (slice blobPadTwo 32 64) = true := by decide +kernel
  have hm : macKeyOf testKey = slice testKey 0 32 := by decide +kernel
  have he : encKeyOf testKey = slice testKey 32 64 := by decide +kernel
  unfold aeadDecrypt
  rw [hs, hi, hb, ht, hm, he, ← blobPadTwo_parts.1, hc, blobPadTwo_parts.2]
  rfl

/-- The states of the decrypt witnesses: a blob at offset 0, the output behind it. -/
def decryptState (blob : Bytes) (n : Word) : State := busyState 2 (operands 0 n 64) blob []

theorem testKey_file : fileBytes (operands 0 0 0).key = testKey := by decide +kernel

theorem decryptState_input (n : Word) : Memory.readBytes (decryptState blobPadTwo n).buf 0 64 = blobPadTwo := by
  have hl : blobPadTwo.length = 64 := by decide +kernel
  have h := Memory.readBytes_writeBytes [] 0 blobPadTwo
  rw [hl] at h
  rw [show (decryptState blobPadTwo n).buf = Memory.writeBytes [] 0 blobPadTwo by
    simp only [decryptState, busyState, idleState]]
  exact h

theorem decryptState_runs : exec .decrypt (decryptState blobPadTwo 64) =
    .next (finishDecrypt (zeros 14) (snapOf 2 (operands 0 64 64)) (decryptState blobPadTwo 64)) := by
  have hd : aeadDecrypt (compositeKey (snapOf 2 (operands 0 64 64)))
      (inputOperand (snapOf 2 (operands 0 64 64)) (decryptState blobPadTwo 64))
      (aadOperand (snapOf 2 (operands 0 64 64)) (decryptState blobPadTwo 64)) = some (zeros 14) := by
    rw [show compositeKey (snapOf 2 (operands 0 64 64)) = testKey from testKey_file,
      show inputOperand (snapOf 2 (operands 0 64 64)) (decryptState blobPadTwo 64) = blobPadTwo from
        decryptState_input 64]
    exact blobPadTwo_decrypts
  have hr : RegionsAccepted (decryptState blobPadTwo 64).bufSize
      (reservedLength (snapOf 2 (operands 0 64 64)).ops.inlen.toNat) (operands 0 64 64) := by
    unfold RegionsAccepted
    decide
  rcases execDecrypt_cases (s := decryptState blobPadTwo 64) (snap := snapOf 2 (operands 0 64 64)) rfl with
    ⟨h, -⟩ | ⟨-, h, -⟩ | ⟨-, -, h, -⟩ | ⟨pt, -, -, h, he⟩
  · exact absurd (by decide) h
  · exact absurd hr h
  · rw [hd] at h
    cases h
  · rw [hd] at h
    cases h
    exact he

/-! ## Encoding and the step -/

theorem witness_DecodeFollowsTheOpcodeMap : (0x0 : Word).toNat = 0 ∧ (0x1 : Word).toNat = 1 ∧
    (0x2 : Word).toNat = 2 ∧ (0x3 : Word).toNat = 3 ∧ (4 ≤ (0x4 : Word).toNat ∧ (0x4 : Word).toNat < 16) ∧
    (4 ≤ (0xf : Word).toNat ∧ (0xf : Word).toNat < 16) ∧ 16 ≤ (0x10 : Word).toNat ∧
    16 ≤ (0xffffffff : Word).toNat := by decide

theorem witness_DecodeAndEncodeAgree : (∀ i ∈ [Instr.nop, .encrypt, .decrypt, .zeroize], i.wf = true) ∧
    0 < 2 ^ 32 ∧ 0xffffffff < 2 ^ 32 := by decide

theorem witness_StepRunsTheDecodedCommand :
    (busyState 0 OperandRegs.cleared [] [.sequencer]).phase = .busy (snapOf 0 OperandRegs.cleared) ∧
    decode (snapOf 0 OperandRegs.cleared).cmd = .command .nop ∧
    (busyState 0 OperandRegs.cleared [] [.sequencer]).inputs = .sequencer :: [] ∧
    (busyState 0 OperandRegs.cleared [] []).inputs = [] ∧
    (waitState [.entropy 0]).phase = .busy waitSnap ∧ decode waitSnap.cmd = .command .encrypt ∧
    (waitState [.entropy 0]).inputs = .entropy 0 :: [] ∧ (waitState [.entropy 0]).entReq = true := by
  decide +kernel

theorem witness_StepKeepsConsistent :
    (Consistent (waitState []) ∧ step (waitState []) = .next (waitState [])) ∧
    Consistent (waitState [.entropy 0]) ∧ ∃ t, step (waitState [.entropy 0]) = .next t :=
  ⟨⟨waitState_consistent [], rfl⟩, waitState_consistent _, _, eq_next_after (by decide +kernel)⟩

/-! ## Reset -/

theorem witness_ResetGivesEveryRegisterItsValue :
    (busyState 1 (operands 0 0 0) [] [.assertReset]).inputs = .assertReset :: [] ∧
    (busyState 1 (operands 0 0 0) [] [.powerOn [7]]).inputs = .powerOn [7] :: [] := ⟨rfl, rfl⟩

/-- The regions end at the end of the buffer; each command and each refusal has its clause. -/
theorem witness_WarmResetKeepsWhatNoCommandCouldWrite :
    (∀ v o, (busyState v o [] [.assertReset]).inputs = .assertReset :: [] ∧
      (busyState v o [] [.assertReset]).phase = .busy (snapOf v o)) ∧
    (idleState (operands 0 0 0) [] [.assertReset]).phase = .idle ∧
    (decode 1 = .command .encrypt ∧ (edgeOps 0 192).keylen.toNat = 64 ∧
      RegionsAccepted 256 (blobLength 0) (edgeOps 0 192)) ∧
    (decode 2 = .command .decrypt ∧ (edgeOps 64 240).keylen.toNat = 64 ∧
      RegionsAccepted 256 (reservedLength 64) (edgeOps 64 240)) ∧
    decode 3 = .command .zeroize ∧ decode 0 = .command .nop ∧ decode 0x10 = .illegal .reservedBits ∧
    ¬(OperandRegs.cleared.keylen.toNat = 64) ∧ ¬RegionsAccepted 256 (blobLength 0) (edgeOps 0 193) ∧
    ¬RegionsAccepted 256 (reservedLength 64) (edgeOps 64 63) :=
  ⟨fun _ _ => ⟨rfl, rfl⟩, rfl, ⟨by decide, by decide, edge_encrypt_accepted⟩,
    ⟨by decide, by decide, edge_decrypt_accepted⟩, by decide, by decide, by decide, by decide,
    encrypt_not_accepted, decrypt_not_accepted⟩

theorem witness_PowerOnGivesEveryBufInit :
    (idleState (operands 0 0 0) [] [.powerOn (rep 0xa5 256)]).inputs = .powerOn (rep 0xa5 256) :: [] ∧
    (rep 0xa5 256).length = (idleState (operands 0 0 0) [] [.powerOn (rep 0xa5 256)]).bufSize :=
  ⟨rfl, length_rep _ _⟩

/-- A warm reset and a power-on reset of a block that waits for the entropy source. -/
theorem witness_ResetAbortsTheCommand :
    (waitState [.assertReset]).phase = .busy waitSnap ∧ (waitState [.assertReset]).inputs = .assertReset :: [] ∧
    (waitState [.powerOn [7]]).phase = .busy waitSnap ∧ (waitState [.powerOn [7]]).inputs = .powerOn [7] :: [] :=
  ⟨rfl, rfl, rfl, rfl⟩

theorem readBytes_none (m : Memory) (off : Nat) : Memory.readBytes m off 0 = [] := rfl

/-- A block in reset with one input to come. -/
def heldState (e : Input) : State := { warmReset State.reset with inputs := [e] }

theorem witness_HeldResetAnswersZero (e : Input) : (heldState e).rstHeld = true ∧ (heldState e).inputs = e :: [] :=
  ⟨rfl, rfl⟩

theorem witness_EntropyAnswerNeedsARequest :
    (idleState (operands 0 0 0) [] [.entropy 5]).inputs = .entropy 5 :: [] ∧
    (idleState (operands 0 0 0) [] [.entropy 5]).entReq = false ∧
    (idleState (operands 0 0 0) [] [.entropy 5]).phase = .idle ∧
    (waitState [.entropy 5]).inputs = .entropy 5 :: [] ∧ (waitState [.entropy 5]).entReq = true ∧
    (waitState [.entropy 5]).entData = none ∧ Consistent (waitState [.entropy 5]) ∧
    ∃ t, step (waitState [.entropy 5]) = .next t ∧ t ≠ { waitState [.entropy 5] with inputs := [] } := by
  refine ⟨rfl, rfl, rfl, rfl, rfl, rfl, waitState_consistent _, _, eq_next_after (by decide +kernel),
    fun h => ?_⟩
  exact absurd (congrArg State.done h) (by decide +kernel)

/-! ## The host port -/

/-- One input at an idle and at a busy block. -/
def idleAt (e : Input) : State := idleState (operands 0 0 0) [] [e]

def busyAt (e : Input) : State := busyState 1 (operands 0 0 0) [] [e]

theorem witness_IllegalAccessIsRefused :
    (idleAt (.hostRead 0x8000 .one)).rstHeld = false ∧
    (idleAt (.hostRead 0x8000 .one)).inputs = .hostRead 0x8000 .one :: [] ∧ AccessSize.one ≠ .four ∧
    (busyAt (.hostWrite 0xffff .four 1)).rstHeld = false ∧
    (busyAt (.hostWrite 0xffff .four 1)).inputs = .hostWrite 0xffff .four 1 :: [] ∧
    (0xffff : Offset).toNat % 4 ≠ 0 ∧ (0x0011 : Offset).toNat % 4 ≠ 0 := by
  refine ⟨rfl, rfl, by decide, rfl, rfl, by decide, by decide⟩

/-- The first and the last offset of each busy-locked range. -/
theorem witness_BusyLockedAccessIsRefused :
    ∀ off ∈ [(0x1C : Offset), 0x34, 0x40, 0x8C, 0x8000, 0x80FC],
      (busyAt (.hostRead off .four)).rstHeld = false ∧
      (busyAt (.hostRead off .four)).phase = .busy (snapOf 1 (operands 0 0 0)) ∧ off.toNat % 4 = 0 ∧
      LockedOffset (busyAt (.hostRead off .four)).bufSize off.toNat ∧
      (busyAt (.hostRead off .four)).inputs = .hostRead off .four :: [] ∧
      (busyAt (.hostWrite off .four 1)).inputs = .hostWrite off .four 1 :: [] := by
  intro off ho
  simp only [List.mem_cons, List.not_mem_nil, or_false] at ho
  rcases ho with rfl | rfl | rfl | rfl | rfl | rfl <;>
    exact ⟨rfl, rfl, by decide, by unfold LockedOffset; decide +kernel, rfl, rfl⟩

/-- Open targets at the ends of their ranges. -/
theorem witness_BusyOpenAccessIgnoresThePhase :
    ∀ off ∈ [(0x00 : Offset), 0x0C, 0x10, 0x18, 0x38, 0x3C, 0x90, 0x7FFC, 0x8100, 0xFFFC],
      (idleAt (.hostRead off .four)).rstHeld = false ∧ (idleAt (.hostRead off .four)).phase = .idle ∧
      off.toNat % 4 = 0 ∧ ¬LockedOffset (idleAt (.hostRead off .four)).bufSize off.toNat ∧
      (idleAt (.hostRead off .four)).inputs = .hostRead off .four :: [] ∧
      (idleAt (.hostWrite off .four 1)).inputs = .hostWrite off .four 1 :: [] := by
  intro off ho
  simp only [List.mem_cons, List.not_mem_nil, or_false] at ho
  rcases ho with rfl | rfl | rfl | rfl | rfl | rfl | rfl | rfl | rfl | rfl <;>
    exact ⟨rfl, rfl, by decide, by unfold LockedOffset; decide +kernel, rfl, rfl⟩

theorem witness_UnmappedOffsetsReadZero :
    ∀ off ∈ [(0x38 : Offset), 0x3C, 0x90, 0x7FFC, 0x8100, 0xFFFC],
      (busyAt (.hostRead off .four)).rstHeld = false ∧ off.toNat % 4 = 0 ∧
      (off.toNat = 0x38 ∨ off.toNat = 0x3C ∨ (0x90 ≤ off.toNat ∧ off.toNat ≤ 0x7FFF) ∨
        0x8000 + (busyAt (.hostRead off .four)).bufSize ≤ off.toNat) ∧
      (busyAt (.hostRead off .four)).inputs = .hostRead off .four :: [] ∧
      (idleAt (.hostWrite off .four 1)).inputs = .hostWrite off .four 1 :: [] := by
  intro off ho
  simp only [List.mem_cons, List.not_mem_nil, or_false] at ho
  rcases ho with rfl | rfl | rfl | rfl | rfl | rfl <;>
    exact ⟨rfl, by decide, by decide +kernel, rfl, rfl⟩

/-- The first and the last word of the window. -/
theorem witness_BufferWindowHoldsLanes :
    ∀ c ∈ [((0x8000 : Offset), 0), (0x80FC, 252)],
      (idleAt (.hostRead c.1 .four)).rstHeld = false ∧ c.1.toNat = 0x8000 + c.2 ∧ c.2 % 4 = 0 ∧
      c.2 + 4 ≤ (idleAt (.hostRead c.1 .four)).bufSize ∧ (idleAt (.hostRead c.1 .four)).phase = .idle ∧
      (idleAt (.hostRead c.1 .four)).inputs = .hostRead c.1 .four :: [] ∧
      (idleAt (.hostWrite c.1 .four 1)).phase = .idle ∧
      (idleAt (.hostWrite c.1 .four 1)).inputs = .hostWrite c.1 .four 1 :: [] ∧
      (busyAt (.hostRead c.1 .four)).rstHeld = false ∧ isBusy (busyAt (.hostRead c.1 .four)) = true ∧
      (busyAt (.hostRead c.1 .four)).inputs = .hostRead c.1 .four :: [] ∧
      (busyAt (.hostWrite c.1 .four 1)).inputs = .hostWrite c.1 .four 1 :: [] := by
  have h : ∀ c ∈ [((0x8000 : Offset), 0), (0x80FC, 252)],
      c.1.toNat = 0x8000 + c.2 ∧ c.2 % 4 = 0 ∧ c.2 + 4 ≤ 256 := by decide +kernel
  intro c hc
  rw [show (idleAt (.hostRead c.1 .four)).bufSize = 256 from rfl]
  exact ⟨rfl, (h c hc).1, (h c hc).2.1, (h c hc).2.2, rfl, rfl, rfl, rfl, rfl, rfl, rfl, rfl⟩

theorem witness_OperandRegisterHoldsWhatIsWritten :
    ∀ off ∈ [(0x20 : Offset), 0x34, 0x80, 0x8C],
      (idleAt (.hostWrite off .four 9)).rstHeld = false ∧ (idleAt (.hostWrite off .four 9)).phase = .idle ∧
      off.toNat % 4 = 0 ∧
      ((0x20 ≤ off.toNat ∧ off.toNat ≤ 0x34) ∨ (0x80 ≤ off.toNat ∧ off.toNat < 0x90)) ∧
      (idleAt (.hostWrite off .four 9)).inputs = .hostWrite off .four 9 :: [] := by
  intro off ho
  simp only [List.mem_cons, List.not_mem_nil, or_false] at ho
  rcases ho with rfl | rfl | rfl | rfl <;>
    exact ⟨rfl, rfl, by decide, by decide, rfl⟩

theorem witness_KeyRegisterWriteStoresFourBytes :
    (0x40 : Offset).toNat = 0x40 + 4 * (0 : Fin 16).val ∧
    (0x7C : Offset).toNat = 0x40 + 4 * (15 : Fin 16).val ∧
    (idleAt (.hostWrite 0x7C .four 9)).rstHeld = false ∧ (idleAt (.hostWrite 0x7C .four 9)).phase = .idle ∧
    (idleAt (.hostWrite 0x7C .four 9)).inputs = .hostWrite 0x7C .four 9 :: [] := by
  refine ⟨by decide, by decide, rfl, rfl, rfl⟩

theorem witness_CtrlWriteStoresTwoBits :
    (busyAt (.hostWrite 0x00C .four 3)).rstHeld = false ∧
    (busyAt (.hostWrite 0x00C .four 3)).inputs = .hostWrite 0x00C .four 3 :: [] := ⟨rfl, rfl⟩

theorem witness_StatusWriteClearsAndNeverSets :
    (idleAt (.hostWrite 0x010 .four 6)).rstHeld = false ∧
    (idleAt (.hostWrite 0x010 .four 6)).inputs = .hostWrite 0x010 .four 6 :: [] ∧
    (busyAt (.hostRead 0x010 .four)).rstHeld = false ∧
    (busyAt (.hostRead 0x010 .four)).inputs = .hostRead 0x010 .four :: [] := ⟨rfl, rfl, rfl, rfl⟩

theorem witness_IrqIsDoneAndEnabled :
    (idleAt .sequencer).done = (busyAt .sequencer).done ∧ (idleAt .sequencer).ie = (busyAt .sequencer).ie :=
  ⟨rfl, rfl⟩

theorem witness_IdentityRegistersAreConstant (off : Offset) (_ : off = 0x000 ∨ off = 0x004 ∨ off = 0x008) :
    (busyAt (.hostRead off .four)).rstHeld = false ∧
    (busyAt (.hostRead off .four)).inputs = .hostRead off .four :: [] ∧
    (idleAt (.hostWrite off .four 1)).rstHeld = false ∧
    (idleAt (.hostWrite off .four 1)).inputs = .hostWrite off .four 1 :: [] := ⟨rfl, rfl, rfl, rfl⟩

theorem witness_RecordRegistersAreReadOnly :
    (idleAt (.hostRead 0x014 .four)).rstHeld = false ∧
    (idleAt (.hostRead 0x014 .four)).inputs = .hostRead 0x014 .four :: [] ∧
    (idleAt (.hostRead 0x018 .four)).inputs = .hostRead 0x018 .four :: [] ∧
    (busyAt (.hostWrite 0x018 .four 1)).inputs = .hostWrite 0x018 .four 1 :: [] := ⟨rfl, rfl, rfl, rfl⟩

theorem witness_ReadsChangeNothing :
    (busyAt (.hostRead 0x8000 .four)).rstHeld = false ∧
    (busyAt (.hostRead 0x8000 .four)).inputs = .hostRead 0x8000 .four :: [] ∧
    RefusedAccess (busyAt (.hostRead 0x8000 .four)) 0x8000 .four ∧
    (idleAt (.hostRead 0x8000 .four)).rstHeld = false ∧
    (idleAt (.hostRead 0x8000 .four)).inputs = .hostRead 0x8000 .four :: [] ∧
    ¬RefusedAccess (idleAt (.hostRead 0x8000 .four)) 0x8000 .four := by
  refine ⟨rfl, rfl, refused_iff.mp (by decide +kernel), rfl, rfl, ?_⟩
  rw [← refused_iff]
  decide +kernel

theorem witness_AcceptanceTakesTheSnapshot :
    (idleAt (.hostWrite 0x01C .four 0xffffffff)).rstHeld = false ∧
    (idleAt (.hostWrite 0x01C .four 0xffffffff)).phase = .idle ∧
    (idleAt (.hostWrite 0x01C .four 0xffffffff)).inputs = .hostWrite 0x01C .four 0xffffffff :: [] :=
  ⟨rfl, rfl, rfl⟩

theorem witness_HostCannotDisturbARunningCommand :
    (busyAt (.hostWrite 0x01C .four 0)).phase = .busy (snapOf 1 (operands 0 0 0)) ∧
    nextAccesses (busyAt (.hostWrite 0x01C .four 0)) 0x01C .four ∧
    (∃ t, step (busyAt (.hostWrite 0x01C .four 0)) = .next t) ∧
    nextAccesses (busyAt (.hostRead 0x010 .four)) 0x010 .four ∧
    ∃ t, step (busyAt (.hostRead 0x010 .four)) = .next t :=
  ⟨rfl, .inr ⟨0, [], rfl⟩, ⟨_, rfl⟩, .inl ⟨[], rfl⟩, _, rfl⟩

/-- The two key files and the two snapshots differ. -/
theorem witness_NoHostReadDependsOnTheKey :
    isBusy { busyAt (.hostRead 0x040 .four) with phase := .busy (snapOf 1 OperandRegs.cleared) } =
      isBusy (busyAt (.hostRead 0x040 .four)) ∧
    (busyAt (.hostRead 0x040 .four)).inputs = .hostRead 0x040 .four :: [] ∧
    (operands 0 0 0).key ≠ OperandRegs.cleared.key := by
  refine ⟨rfl, rfl, by decide +kernel⟩

/-! ## The commands -/

theorem witness_NopCompletesOk :
    (busyState 0 OperandRegs.cleared [] []).phase = .busy (snapOf 0 OperandRegs.cleared) := rfl

/-- The last byte of the buffer and the first offset behind it. -/
theorem witness_ZeroizeClearsBufferKeyAndOperands :
    (busyState 3 (operands 0 0 0) [] []).phase = .busy (snapOf 3 (operands 0 0 0)) ∧
    255 < (busyState 3 (operands 0 0 0) [] []).bufSize ∧ (busyState 3 (operands 0 0 0) [] []).bufSize ≤ 256 := by
  refine ⟨rfl, by decide +kernel, by decide +kernel⟩

theorem witness_ReservedWordReportsIllegalCommand :
    (busyState 4 (operands 0 0 0) [] [.sequencer]).phase = .busy (snapOf 4 (operands 0 0 0)) ∧
    (busyState 4 (operands 0 0 0) [] [.sequencer]).inputs = .sequencer :: [] ∧
    decode (snapOf 4 (operands 0 0 0)).cmd = .illegal .reservedOpcode ∧
    decode (snapOf 0xffffffff (operands 0 0 0)).cmd = .illegal .reservedBits := by
  refine ⟨rfl, rfl, by decide +kernel, by decide +kernel⟩

/-- KEYLEN 63, 65 and 0x40000040 are wrong; with KEYLEN 64 a command ends with another code. -/
theorem witness_WrongKeyLengthFailsFirst :
    (∀ i : Word, i = 1 ∨ i = 2 → ∀ k : Word,
      (busyState i { operands 0 0 0 with keylen := k } [] []).phase =
        .busy (snapOf i { operands 0 0 0 with keylen := k })) ∧
    (63 : Word).toNat ≠ 64 ∧ (65 : Word).toNat ≠ 64 ∧ (0x40000040 : Word).toNat ≠ 64 ∧
    (64 : Word).toNat = 64 ∧
    (∃ t, exec .encrypt (busyState 1 (edgeOps 0 193) [] []) = .next t ∧ t.phase = .idle) ∧
    ∃ t, exec .decrypt (busyState 2 (edgeOps 47 256) [] []) = .next t ∧ t.phase = .idle := by
  refine ⟨fun _ _ _ => rfl, by decide, by decide, by decide, by decide,
    ⟨_, eq_next_after (by decide +kernel), by decide +kernel⟩,
    _, eq_next_after (by decide +kernel), by decide +kernel⟩

theorem witness_BadRegionFailsBeforeAnyRead :
    (busyState 1 (edgeOps 0 193) [] []).phase = .busy (snapOf 1 (edgeOps 0 193)) ∧
    (edgeOps 0 193).keylen.toNat = 64 ∧ ¬RegionsAccepted 256 (blobLength 0) (edgeOps 0 193) ∧
    (busyState 2 (edgeOps 64 63) [] []).phase = .busy (snapOf 2 (edgeOps 64 63)) ∧
    (edgeOps 64 63).keylen.toNat = 64 ∧ ¬RegionsAccepted 256 (reservedLength 64) (edgeOps 64 63) :=
  ⟨rfl, by decide, encrypt_not_accepted, rfl, by decide, decrypt_not_accepted⟩

/-- Both IV sources; the output ends at the end of the buffer. -/
theorem witness_EncryptWritesTheBlob :
    ((busyState 1 (edgeOps 0 192) [] []).phase = .busy (snapOf 1 (edgeOps 0 192)) ∧
      (edgeOps 0 192).keylen.toNat = 64 ∧ RegionsAccepted 256 (blobLength 0) (edgeOps 0 192) ∧
      (snapOf 1 (edgeOps 0 192)).ivsrc = true) ∧
    ({ waitState [] with entData := some 5 } : State).phase = .busy waitSnap ∧
    waitSnap.ops.keylen.toNat = 64 ∧ RegionsAccepted 256 (blobLength 0) waitSnap.ops ∧
    waitSnap.ivsrc = false ∧ ({ waitState [] with entData := some 5 } : State).entReq = true :=
  ⟨⟨rfl, by decide, edge_encrypt_accepted, rfl⟩, rfl, by decide, (waitState_awaits []).2.2.2, rfl, rfl⟩

/-- No request yet, and a request without an answer. -/
theorem witness_EncryptAsksForEntropyAndWaits :
    (waitState []).phase = .busy waitSnap ∧ waitSnap.ivsrc = false ∧ waitSnap.ops.keylen.toNat = 64 ∧
    RegionsAccepted 256 (blobLength 0) waitSnap.ops ∧ (waitState []).entData = none ∧
    ({ waitState [] with entReq := false } : State).phase = .busy waitSnap ∧
    ({ waitState [] with entReq := false } : State).entReq = false :=
  ⟨rfl, rfl, by decide, (waitState_awaits []).2.2.2, rfl, rfl, rfl⟩

theorem witness_UnansweredEncryptStaysBusyForever :
    ({ waitState [] with entReq := false } : State).phase = .busy waitSnap ∧
    AwaitsEntropy { waitState [] with entReq := false } waitSnap ∧
    ({ waitState [] with entReq := false } : State).inputs = [] ∧
    ({ waitState [] with entReq := false } : State).entData = none :=
  ⟨rfl, waitState_awaits [], rfl, rfl⟩

theorem witness_EntropyAnswerCompletesTheEncrypt :
    (waitState [.entropy 5]).phase = .busy waitSnap ∧ AwaitsEntropy (waitState [.entropy 5]) waitSnap ∧
    (waitState [.entropy 5]).entReq = true ∧ (waitState [.entropy 5]).inputs = .entropy 5 :: [] :=
  ⟨rfl, waitState_awaits _, rfl, rfl⟩

/-- The four kinds of bad blob: 47 and 63 bytes, a body of 17 bytes, a wrong tag, a bad padding. -/
theorem witness_EveryIntegrityFailureLooksTheSame :
    (∀ blob n, (decryptState blob n).phase = .busy (snapOf 2 (operands 0 n 64))) ∧
    (operands 0 64 64).keylen.toNat = 64 ∧
    (RegionsAccepted 256 (reservedLength 47) (edgeOps 47 256) ∧ 47 < 64 ∧ 63 < 64) ∧
    (RegionsAccepted 256 (reservedLength 65) (operands 0 65 65) ∧ (65 - 48) % 16 ≠ 0) ∧
    RegionsAccepted 256 (reservedLength 64) (operands 0 64 64) ∧
    slice (zeros 64) 32 64 ≠ tag (slice testKey 0 32) [] (slice (zeros 64) 0 16) (slice (zeros 64) 16 32) ∧
    pkcs7Unpad (cbcDec (slice testKey 32 64) (slice blobBadPad 0 16) (slice blobBadPad 16 32)) = none := by
  refine ⟨fun _ _ => rfl, by decide, ⟨short_decrypt_accepted, by decide, by decide⟩, ⟨?_, by decide⟩, ?_, ?_,
    blobBadPad_padding⟩
  · unfold RegionsAccepted
    decide
  · unfold RegionsAccepted
    decide
  · decide +kernel

theorem decryptState_accepted : RegionsAccepted 256 (reservedLength 64) (operands 0 64 64) := by
  unfold RegionsAccepted
  decide

theorem witness_DecryptWritesThePlaintext :
    (decryptState blobPadTwo 64).phase = .busy (snapOf 2 (operands 0 64 64)) ∧
    (operands 0 64 64).keylen.toNat = 64 ∧ RegionsAccepted 256 (reservedLength 64) (operands 0 64 64) ∧
    blobPadTwo = Memory.readBytes (decryptState blobPadTwo 64).buf 0 64 ∧
    [] = Memory.readBytes (decryptState blobPadTwo 64).buf 0 0 ∧
    fileBytes (operands 0 64 64).key = testKey ∧ 64 ≤ blobPadTwo.length ∧ (blobPadTwo.length - 48) % 16 = 0 ∧
    slice blobPadTwo 32 64 =
      tag (slice testKey 0 32) [] (slice blobPadTwo 0 16) (slice blobPadTwo 16 32) ∧
    pkcs7Unpad (cbcDec (slice testKey 32 64) (slice blobPadTwo 0 16) (slice blobPadTwo 16 32)) =
      some (zeros 14) :=
  ⟨rfl, by decide, decryptState_accepted, (decryptState_input 64).symm, (readBytes_none _ _).symm,
    testKey_file, by decide +kernel,
    by decide +kernel, blobPadTwo_parts⟩

theorem witness_EncryptWritesNothingElse :
    (busyState 1 (edgeOps 0 192) [] []).phase = .busy (snapOf 1 (edgeOps 0 192)) ∧
    ∃ t, exec .encrypt (busyState 1 (edgeOps 0 192) [] []) = .next t ∧ t.result = .ok :=
  ⟨rfl, _, eq_next_after (by decide +kernel), by decide +kernel⟩

/-- The four ends of a DECRYPT. -/
theorem witness_DecryptLeavesNoPartialPlaintext :
    (∃ t, exec .decrypt (decryptState blobPadTwo 64) = .next t ∧ t.result = .ok) ∧
    (∃ t, exec .decrypt (busyState 2 (edgeOps 47 256) [] []) = .next t ∧ t.result = .invalidCiphertext) ∧
    (∃ t, exec .decrypt (busyState 2 OperandRegs.cleared [] []) = .next t ∧ t.result = .invalidCryptoKey) ∧
    ∃ t, exec .decrypt (busyState 2 (edgeOps 64 63) [] []) = .next t ∧ t.result = .badRegion :=
  ⟨⟨_, decryptState_runs, rfl⟩, ⟨_, eq_next_after (by decide +kernel), by decide +kernel⟩,
    ⟨_, eq_next_after (by decide +kernel), by decide +kernel⟩,
    _, eq_next_after (by decide +kernel), by decide +kernel⟩

theorem witness_OutputLengthsAreAsStated :
    (bufSizeWf (busyState 1 (edgeOps 0 192) [] []).bufSize = true ∧
      ∃ t, exec .encrypt (busyState 1 (edgeOps 0 192) [] []) = .next t ∧ t.phase = .idle ∧ t.result = .ok) ∧
    (∃ t, exec .decrypt (decryptState blobPadTwo 64) = .next t ∧ t.result = .ok) ∧
    (zeros 16).length = 16 :=
  ⟨⟨test_wf_bufSize.1, _, eq_next_after (by decide +kernel), by decide +kernel, by decide +kernel⟩,
    ⟨_, decryptState_runs, rfl⟩, by decide⟩

theorem witness_DecryptInvertsEncrypt : testIv.length = 16 := by decide +kernel

/-! ## Two commands -/

/-- An ENCRYPT of two bytes at 0 to offset 64, and the DECRYPT of its blob to offset 0. -/
def roundFirst : State := busyState 1 (operands 0 2 64) [8, 9] []

def roundSecond : State :=
  { after (exec .encrypt roundFirst) with phase := .busy (snapOf 2 (operands 64 64 0)) }

theorem roundFirst_ends : isNext (exec .encrypt roundFirst) = true ∧
    (after (exec .encrypt roundFirst)).phase = .idle ∧ (after (exec .encrypt roundFirst)).result = .ok ∧
    (after (exec .encrypt roundFirst)).outlen = 64 := by decide +kernel

theorem witness_CommandRoundTrip :
    bufSizeWf roundFirst.bufSize = true ∧ roundFirst.phase = .busy (snapOf 1 (operands 0 2 64)) ∧
    exec .encrypt roundFirst = .next (after (exec .encrypt roundFirst)) ∧
    (after (exec .encrypt roundFirst)).phase = .idle ∧ (after (exec .encrypt roundFirst)).result = .ok ∧
    roundSecond.phase = .busy (snapOf 2 (operands 64 64 0)) ∧ (operands 64 64 0).keylen.toNat = 64 ∧
    (operands 64 64 0).key = (operands 0 2 64).key ∧ (operands 64 64 0).inoff = (operands 0 2 64).outoff ∧
    (operands 64 64 0).inlen = (after (exec .encrypt roundFirst)).outlen ∧
    Memory.readBytes roundSecond.buf 64 64 =
      Memory.readBytes (after (exec .encrypt roundFirst)).buf 64
        (after (exec .encrypt roundFirst)).outlen.toNat ∧
    Memory.readBytes roundSecond.buf 0 0 = Memory.readBytes roundFirst.buf 0 0 ∧
    roundSecond.bufSize = 256 ∧ RegionsAccepted 256 (reservedLength 64) (operands 64 64 0) := by
  obtain ⟨h1, h2, h3, h4⟩ := roundFirst_ends
  refine ⟨test_wf_bufSize.1, rfl, eq_next_after h1, h2, h3, rfl, by decide, rfl, rfl,
    by rw [h4]; decide +kernel, ?_,
    (readBytes_none _ _).trans (readBytes_none _ _).symm,
    by decide +kernel, ?_⟩
  · rw [h4, show roundSecond.buf = (after (exec .encrypt roundFirst)).buf by simp only [roundSecond],
      show (64 : Word).toNat = 64 by decide]
  · unfold RegionsAccepted
    decide

/-- An ENCRYPT whose IV registers hold the bytes an entropy answer gives the other one. -/
def fixedIvOps : OperandRegs := { edgeOps 0 192 with iv := #v[0x41230994, 0x04bc, 0, 0] }

def answeredState : State := { waitState [] with entData := some 0x04bc41230994 }

/-- The IV from the registers, the output at offset 192; the same IV from the entropy port, the output at offset 0. -/
theorem witness_BlobIsDeterminedByItsInputs :
    (busyState 1 fixedIvOps [] []).phase = .busy (snapOf 1 fixedIvOps) ∧
    answeredState.phase = .busy waitSnap ∧
    obtainIv (snapOf 1 fixedIvOps) (busyState 1 fixedIvOps [] []) = some (lanes 16 (0x04bc41230994 : EntropyWord)) ∧
    obtainIv waitSnap answeredState = some (lanes 16 (0x04bc41230994 : EntropyWord)) ∧
    fixedIvOps.key = waitSnap.ops.key ∧
    Memory.readBytes (busyState 1 fixedIvOps [] []).buf 0 0 = Memory.readBytes answeredState.buf 0 0 ∧
    Memory.readBytes (busyState 1 fixedIvOps [] []).buf 256 0 = Memory.readBytes answeredState.buf 0 0 ∧
    (∃ t, exec .encrypt (busyState 1 fixedIvOps [] []) = .next t ∧ t.result = .ok) ∧
    ∃ t, exec .encrypt answeredState = .next t ∧ t.result = .ok :=
  ⟨rfl, rfl, by decide +kernel, by decide +kernel, rfl,
    (readBytes_none _ _).trans (readBytes_none _ _).symm, (readBytes_none _ _).trans (readBytes_none _ _).symm,
    ⟨_, eq_next_after (by decide +kernel), by decide +kernel⟩,
    _, eq_next_after (by decide +kernel), by decide +kernel⟩

/-- The blob C22 with its last byte changed. -/
theorem witness_ChangedTagIsRejected :
    aeadDecrypt testKey blobPadTwo [] = some (zeros 14) ∧
    (blobPadTwo.set 63 0).length = blobPadTwo.length ∧
    slice (blobPadTwo.set 63 0) 0 (blobPadTwo.length - 32) = slice blobPadTwo 0 (blobPadTwo.length - 32) ∧
    blobPadTwo.set 63 0 ≠ blobPadTwo :=
  ⟨blobPadTwo_decrypts, by decide +kernel, by decide +kernel, by decide +kernel⟩

/-! ## Rules of the whole block -/

/-- ACCERR cleared by a STATUS write and by a reset, set by a refused access. -/
theorem witness_AccerrIsSticky :
    (∃ t, step { idleAt (.hostWrite 0x010 .four 4) with accerr := true } = .next t ∧ t.accerr = false) ∧
    (∃ t, step { idleAt .assertReset with accerr := true } = .next t ∧ t.accerr = false) ∧
    (∃ t, step (busyAt (.hostRead 0x8000 .four)) = .next t ∧ t.accerr = true) ∧
    (busyAt (.hostRead 0x8000 .four)).accerr = false ∧ (busyAt (.hostRead 0x8000 .four)).rstHeld = false ∧
    nextAccesses (busyAt (.hostRead 0x8000 .four)) 0x8000 .four ∧
    RefusedAccess (busyAt (.hostRead 0x8000 .four)) 0x8000 .four :=
  ⟨⟨_, eq_next_after (by decide +kernel), by decide +kernel⟩, ⟨_, rfl, rfl⟩,
    ⟨_, eq_next_after (by decide +kernel), by decide +kernel⟩, rfl, rfl, .inl ⟨[], rfl⟩,
    refused_iff.mp (by decide +kernel)⟩

/-- DONE set by a completion, cleared by a STATUS write and by an acceptance. -/
theorem witness_DoneMarksCompletions :
    (isBusy (busyState 0 OperandRegs.cleared [] []) = true ∧
      nextIsReset (busyState 0 OperandRegs.cleared [] []) = false ∧
      (busyState 0 OperandRegs.cleared [] []).done = false ∧
      ∃ t, step (busyState 0 OperandRegs.cleared [] []) = .next t ∧ isBusy t = false ∧ t.done = true) ∧
    (∃ t, step { idleAt (.hostWrite 0x010 .four 2) with done := true } = .next t ∧ t.done = false) ∧
    ∃ t, step { idleAt (.hostWrite 0x01C .four 1) with done := true } = .next t ∧ t.done = false :=
  ⟨⟨rfl, rfl, rfl, _, eq_next_after (by decide +kernel), by decide +kernel, by decide +kernel⟩,
    ⟨_, eq_next_after (by decide +kernel), by decide +kernel⟩,
    _, eq_next_after (by decide +kernel), by decide +kernel⟩

/-- BUSY rises, stays and falls. -/
theorem witness_BusyLastsFromAcceptanceToCompletion :
    (isBusy (idleAt (.hostWrite 0x01C .four 1)) = false ∧
      ∃ t, step (idleAt (.hostWrite 0x01C .four 1)) = .next t ∧ isBusy t = true) ∧
    (isBusy (busyState 0 OperandRegs.cleared [] []) = true ∧
      ∃ t, step (busyState 0 OperandRegs.cleared [] []) = .next t ∧ isBusy t = false) ∧
    (waitState []).phase = .busy waitSnap ∧
    ∃ t, step (waitState []) = .next t ∧ t.phase = .busy waitSnap :=
  ⟨⟨rfl, _, eq_next_after (by decide +kernel), by decide +kernel⟩,
    ⟨rfl, _, eq_next_after (by decide +kernel), by decide +kernel⟩, rfl, _, rfl, rfl⟩

/-- A KEY write, a ZEROIZE and a reset, each of which changes the key file. -/
theorem witness_KeyFileHasThreeWriters :
    (∃ t, step (idleAt (.hostWrite 0x07C .four 9)) = .next t ∧
      t.ops.key ≠ (idleAt (.hostWrite 0x07C .four 9)).ops.key) ∧
    (∃ t, step (busyState 3 (operands 0 0 0) [] []) = .next t ∧ t.ops.key ≠ (operands 0 0 0).key) ∧
    ∃ t, step (idleAt .assertReset) = .next t ∧ t.ops.key ≠ (idleAt .assertReset).ops.key :=
  ⟨⟨_, eq_next_after (by decide +kernel), by decide +kernel⟩,
    ⟨_, eq_next_after (by decide +kernel), by decide +kernel⟩, _, rfl, by decide +kernel⟩

/-- A turn with other steps after it, and the turn of an empty list. -/
theorem witness_EnabledCommandCompletes :
    (busyState 0 (operands 0 0 0) [] [.sequencer, .assertReset]).phase = .busy (snapOf 0 (operands 0 0 0)) ∧
    (busyState 0 (operands 0 0 0) [] [.sequencer, .assertReset]).inputs = .sequencer :: [.assertReset] ∧
    ¬AwaitsEntropy (busyState 0 (operands 0 0 0) [] [.sequencer, .assertReset]) (snapOf 0 (operands 0 0 0)) ∧
    (busyState 0 (operands 0 0 0) [] []).phase = .busy (snapOf 0 (operands 0 0 0)) ∧
    (busyState 0 (operands 0 0 0) [] []).inputs = [] ∧
    ¬AwaitsEntropy (busyState 0 (operands 0 0 0) [] []) (snapOf 0 (operands 0 0 0)) ∧
    ¬AwaitsEntropy (busyState 1 (operands 0 0 0) [] []) (snapOf 1 (operands 0 0 0)) :=
  ⟨rfl, rfl, fun h => absurd h.1 (by decide), rfl, rfl, fun h => absurd h.1 (by decide),
    fun h => absurd h.2.1 (by decide)⟩

/-! ## The datapath -/

theorem witness_AesEncryptionIsAPermutation : (zeros 32).length = 32 ∧ (zeros 16).length = 16 ∧
    (rep 1 16).length = 16 := by decide

theorem witness_CbcDecryptionUndoesEncryption : (zeros 16).length = 16 ∧ (zeros 0).length = 16 * 0 ∧
    (zeros 32).length = 16 * 2 := by decide

theorem witness_UnpaddingUndoesPadding : (zeros 16).length = 16 := by decide

theorem witness_UnpaddingAcceptsOnlyPaddings : (rep 0x10 16).length % 16 = 0 ∧ 16 ≤ (rep 0x10 16).length ∧
    pkcs7Unpad (rep 0x10 16) = some [] ∧ rep 0x10 16 = pkcs7Pad [] := by decide +kernel

theorem witness_ComparatorIsEquality : (zeros 32).length = 32 ∧ (rep 1 32).length = 32 ∧ 0 < 32 ∧ 31 < 32 ∧
    (0x80 : Byte) ≠ 0 := by decide

theorem witness_TranscriptIsInjective : (zeros 16).length = 16 ∧ (zeros 5).length < 2 ^ 61 ∧
    transcript (zeros 5) (zeros 16) (zeros 16) = transcript (zeros 5) (zeros 16) (zeros 16) :=
  ⟨by decide, by decide, rfl⟩

end Sys2Proof.Tests
end

section
/-!
SUPPORT for the statements of the state. The host port at a known offset: where the fixed registers stand, which
accesses are let through, and the step such an access gives.
-/

namespace Sys2Proof.Machine

/-! ## The fixed registers (10 R32) -/

theorem targetOf_id (b : Nat) : targetOf b 0x000 = .id := targetOf_register (by decide)

theorem targetOf_version (b : Nat) : targetOf b 0x004 = .version := targetOf_register (by decide)

theorem targetOf_param (b : Nat) : targetOf b 0x008 = .param := targetOf_register (by decide)

theorem targetOf_ctrl (b : Nat) : targetOf b 0x00C = .ctrl := targetOf_register (by decide)

theorem targetOf_status (b : Nat) : targetOf b 0x010 = .status := targetOf_register (by decide)

theorem targetOf_result (b : Nat) : targetOf b 0x014 = .result := targetOf_register (by decide)

theorem targetOf_outlen (b : Nat) : targetOf b 0x018 = .outlen := targetOf_register (by decide)

theorem targetOf_cmd (b : Nat) : targetOf b 0x01C = .cmd := targetOf_register (by decide)

/-- The offset an aligned access has is the one its register stands at. -/
theorem offset_of_targetOf {b : Nat} {off : Offset} {t : Target} (h : off.toNat % 4 = 0)
    (ht : targetOf b off = t) (hr : t ≠ .reserved) (hu : t ≠ .unmapped) :
    off.toNat = registerOffset t := by
  subst ht
  rcases registerOffset_targetOf (b := b) h with e | e | e
  · exact absurd e hr
  · exact absurd e hu
  · exact e.symm

theorem eq_status_of_targetOf {b : Nat} {off : Offset} (h : off.toNat % 4 = 0)
    (ht : targetOf b off = .status) : off = 0x010 :=
  BitVec.eq_of_toNat_eq (offset_of_targetOf h ht (by simp) (by simp))

theorem eq_cmd_of_targetOf {b : Nat} {off : Offset} (h : off.toNat % 4 = 0)
    (ht : targetOf b off = .cmd) : off = 0x01C :=
  BitVec.eq_of_toNat_eq (offset_of_targetOf h ht (by simp) (by simp))

/-- A word of the window lies in the buffer (20 R72). -/
theorem le_of_targetOf_buffer {b k : Nat} {off : Offset} (h : targetOf b off = .buffer k) :
    k + 4 ≤ b := by
  rcases targetOf_cases b off with ⟨ho, e⟩ | ⟨j, -, hj, e⟩ | ⟨-, -, e⟩ <;> rw [h] at e
  · exact absurd e.symm (registerAt_ne_buffer _ _ ho)
  · cases e
    exact hj
  · cases e

/-! ## Accesses that are let through (20 R75, R78) -/

theorem aligned_of_not_refused {s : State} {off : Offset} (h : ¬RefusedAccess s off .four) :
    off.toNat % 4 = 0 := by
  by_contra hn
  exact h (.inr (.inl hn))

/-- What an access that is let through while BUSY = 1 reaches is busy-open (20 R78). -/
theorem open_of_not_refused {s : State} {off : Offset} (h : ¬RefusedAccess s off .four)
    (hb : isBusy s = true) : busyLocked (targetOf s.bufSize off) = false := by
  by_contra hl
  have hl := (busyLocked_targetOf (aligned_of_not_refused h)).mp (by simpa using hl)
  exact h (.inr (.inr ⟨hb, hl⟩))

/-- An access that is let through to a busy-locked target finds the block IDLE (20 R78). -/
theorem idle_of_not_refused {s : State} {off : Offset} (h : ¬RefusedAccess s off .four)
    (hl : busyLocked (targetOf s.bufSize off) = true) : isBusy s = false := by
  cases hb : isBusy s with
  | false => rfl
  | true => rw [open_of_not_refused h hb] at hl; cases hl

/-- The registers below CMD are open in either phase (20 R78). -/
theorem not_refused_of_low {s : State} {off : Offset} (ho : off.toNat % 4 = 0)
    (hl : off.toNat < 0x1C) : ¬RefusedAccess s off .four := by
  rintro (h | h | ⟨-, h⟩)
  · exact h rfl
  · exact h ho
  · simp only [LockedOffset] at h
    omega

theorem hostRead_open {s : State} {off : Offset} (hr : s.rstHeld = false)
    (ha : ¬RefusedAccess s off .four) :
    hostRead off .four s = { s with rdata := some (readTarget s (targetOf s.bufSize off)) } := by
  rcases hostRead_cases off .four s with ⟨h, -⟩ | ⟨-, h, -⟩ | ⟨-, -, e⟩
  · simp [hr] at h
  · exact absurd h ha
  · exact e

theorem hostWrite_open {s : State} {off : Offset} (v : Word) (hr : s.rstHeld = false)
    (ha : ¬RefusedAccess s off .four) :
    hostWrite off .four v s = writeTarget v { s with rdata := none } (targetOf s.bufSize off) := by
  rcases hostWrite_cases off .four v s with ⟨h, -⟩ | ⟨-, h, -⟩ | ⟨-, -, e⟩
  · simp [hr] at h
  · exact absurd h ha
  · exact e

/-- The step of a read that is let through. -/
theorem step_read_open {s : State} {off : Offset} {rest : List Input}
    (hi : s.inputs = .hostRead off .four :: rest) (hr : s.rstHeld = false)
    (ha : ¬RefusedAccess s off .four) :
    step s = .next { s with
      inputs := rest, rdata := some (readTarget s (targetOf s.bufSize off)) } := by
  rw [step_cons hi]
  exact congrArg _ (hostRead_open (s := { s with inputs := rest }) hr ha)

/-- The step of a write that is let through. -/
theorem step_write_open {s : State} {off : Offset} {v : Word} {rest : List Input}
    (hi : s.inputs = .hostWrite off .four v :: rest) (hr : s.rstHeld = false)
    (ha : ¬RefusedAccess s off .four) :
    step s = .next
      (writeTarget v { s with inputs := rest, rdata := none } (targetOf s.bufSize off)) := by
  rw [step_cons hi]
  exact congrArg _ (hostWrite_open (s := { s with inputs := rest }) v hr ha)

/-- The step of a legal write of STATUS clears DONE and ACCERR by bits 1 and 2 (10 R37). -/
theorem step_write_status {s : State} {v : Word} {rest : List Input}
    (hi : s.inputs = .hostWrite 0x010 .four v :: rest) (hr : s.rstHeld = false) :
    step s = .next (writeStatus v { s with inputs := rest, rdata := none }) := by
  rw [step_write_open hi hr (not_refused_of_low (by decide) (by decide)), targetOf_status]
  rfl

end Sys2Proof.Machine
end

section
/-!
The invariant `Consistent`: it holds after every reset, and each operation of each agent keeps it.
-/

namespace Sys2Proof.Machine

/-! ## Resets (70 R280) -/

/-- With the registers at their reset values only the buffer and the port are left to check. -/
theorem consistent_of_registersReset {s : State} (hs : bufSizeWf s.bufSize = true)
    (hw : Memory.wf s.buf = true) (hb : Memory.below s.bufSize s.buf = true)
    (he : s.entData = none) (h : RegistersReset s) : Consistent s := by
  obtain ⟨-, -, hp, hd, -, hres, hout, -, hreq⟩ := id h
  exact {
    bufSize_legal := hs
    buf_wf := hw
    buf_below := hb
    port_clear := he
    busy_record := fun snap e => by simp [hp] at e
    busy_operands := fun snap e => by simp [hp] at e
    request := fun e => by simp [hreq] at e
    done_record := fun e => by simp [hd] at e
    outlen_ok := fun _ => hout
    outlen_fits := by simp [hout]
    held := fun _ => h }

theorem registersReset_warmReset (s : State) : RegistersReset (warmReset s) := by
  simp [RegistersReset]

theorem registersReset_powerOnReset (bufInit : Bytes) (s : State) :
    RegistersReset (powerOnReset bufInit s) := by
  simp [RegistersReset]

theorem consistent_warmReset {s : State} (h : Consistent s) : Consistent (warmReset s) := by
  refine consistent_of_registersReset h.bufSize_legal ?_ ?_ rfl (registersReset_warmReset s)
  · exact Memory.wf_writeBytes _ _ h.buf_wf
  · exact Memory.below_writeBytes _ h.buf_below (by simpa using abortedRegion_fits s)

theorem consistent_powerOnReset (bufInit : Bytes) {s : State} (h : Consistent s) :
    Consistent (powerOnReset bufInit s) := by
  refine consistent_of_registersReset h.bufSize_legal ?_ ?_ rfl (registersReset_powerOnReset _ s)
  · exact Memory.wf_writeBytes _ _ rfl
  · exact Memory.below_writeBytes _ rfl (by simp)

/-! ## What the rules do not speak of -/

/-- The schedule and the answer on the host port are in no rule, and a release only drops one. -/
theorem consistent_schedule {s : State} (h : Consistent s) (rest : List Input)
    (answer : Option Word) : Consistent { s with inputs := rest, rdata := answer } := { h with }

theorem consistent_releaseReset {s : State} (h : Consistent s) : Consistent (releaseReset s) :=
  { h with held := fun e => by simp at e }

/-- While IDLE no request is outstanding (10 R60). -/
theorem entReq_eq_false_of_idle {s : State} (h : Consistent s) (hp : s.phase = .idle) :
    s.entReq = false := by
  cases he : s.entReq with
  | false => rfl
  | true =>
    obtain ⟨snap, e, -⟩ := h.request he
    simp [hp] at e

/-! ## Host accesses (20 R70 to R78) -/

/-- The rule about a held reset says nothing of an update made while `rst_n` is released. -/
theorem not_held {s : State} {p : Prop} (hr : s.rstHeld = false) (e : s.rstHeld = true) : p := by
  simp [hr] at e

theorem consistent_refuseAccess {s : State} (h : Consistent s) (hr : s.rstHeld = false)
    (answer : Option Word) : Consistent { s with accerr := true, rdata := answer } :=
  { h with held := not_held hr }

theorem consistent_writeCtrl {s : State} (h : Consistent s) (hr : s.rstHeld = false) (v : Word) :
    Consistent (writeCtrl v s) :=
  { h with held := not_held hr }

theorem consistent_writeStatus {s : State} (h : Consistent s) (hr : s.rstHeld = false) (v : Word) :
    Consistent (writeStatus v s) :=
  { h with
    busy_record := fun snap e => by
      obtain ⟨hd, hrec⟩ := h.busy_record snap e
      exact ⟨by simp [hd], hrec⟩
    done_record := fun e => h.done_record (by simp only [writeStatus_done, Bool.and_eq_true] at e; exact e.1)
    held := not_held hr }

/-- Acceptance takes the snapshot from the live operands and clears the record (40 R121). -/
theorem consistent_accept {s : State} (h : Consistent s) (hr : s.rstHeld = false)
    (hp : s.phase = .idle) (v : Word) : Consistent (accept v s) :=
  { h with
    busy_record := fun _ _ => ⟨rfl, rfl, rfl⟩
    busy_operands := fun snap e => by cases e; rfl
    request := fun e => by simp [entReq_eq_false_of_idle h hp] at e
    done_record := fun e => by simp at e
    outlen_ok := fun _ => rfl
    outlen_fits := by simp
    held := not_held hr }

theorem consistent_operands {s : State} (h : Consistent s) (hr : s.rstHeld = false)
    (hp : s.phase = .idle) (ops : OperandRegs) : Consistent { s with ops := ops } :=
  { h with
    busy_operands := fun snap e => by simp [hp] at e
    held := not_held hr }

theorem consistent_bufferWord {s : State} (h : Consistent s) (hr : s.rstHeld = false) {k : Nat}
    (hk : k + 4 ≤ s.bufSize) (v : Word) :
    Consistent { s with buf := Memory.writeBytes s.buf k (lanes 4 v) } :=
  { h with
    buf_wf := Memory.wf_writeBytes _ _ h.buf_wf
    buf_below := Memory.below_writeBytes _ h.buf_below (by simpa using hk)
    held := not_held hr }

/-- A write of any target keeps the rules while IDLE. -/
theorem consistent_writeTarget_idle {s : State} (h : Consistent s) (hr : s.rstHeld = false)
    (hp : s.phase = .idle) (v : Word) {t : Target} (hk : ∀ k, t = .buffer k → k + 4 ≤ s.bufSize) :
    Consistent (writeTarget v s t) := by
  cases t with
  | ctrl => exact consistent_writeCtrl h hr v
  | status => exact consistent_writeStatus h hr v
  | cmd => exact consistent_accept h hr hp v
  | keylen | aadoff | aadlen | inoff | inlen | outoff | key | iv => exact consistent_operands h hr hp _
  | buffer k => exact consistent_bufferWord h hr (hk k rfl) v
  | id | version | param | result | outlen | reserved | unmapped => exact h

/-- A write of a busy-open target keeps the rules in either phase. -/
theorem consistent_writeTarget_open {s : State} (h : Consistent s) (hr : s.rstHeld = false)
    (v : Word) {t : Target} (ho : busyLocked t = false) : Consistent (writeTarget v s t) := by
  rcases writeTarget_of_open (v := v) (s := s) ho with ⟨-, e⟩ | ⟨-, e⟩ | ⟨-, -, e⟩ <;> rw [e]
  · exact consistent_writeCtrl h hr v
  · exact consistent_writeStatus h hr v
  · exact h

/-- A write that is let through keeps the rules, since while BUSY = 1 it reaches only busy-open targets. -/
theorem consistent_writeTarget {s : State} (h : Consistent s) (hr : s.rstHeld = false) (v : Word)
    {off : Offset} (ha : ¬RefusedAccess s off .four) :
    Consistent (writeTarget v s (targetOf s.bufSize off)) := by
  cases hb : isBusy s with
  | false =>
    exact consistent_writeTarget_idle h hr (isBusy_eq_false.mp hb) v fun k => le_of_targetOf_buffer
  | true => exact consistent_writeTarget_open h hr v (open_of_not_refused ha hb)

theorem consistent_hostRead {s : State} (h : Consistent s) (off : Offset) (size : AccessSize) :
    Consistent (hostRead off size s) := by
  rcases hostRead_cases off size s with ⟨-, e⟩ | ⟨hr, -, e⟩ | ⟨-, -, e⟩ <;> rw [e]
  · exact consistent_schedule h s.inputs _
  · exact consistent_refuseAccess h hr _
  · exact consistent_schedule h s.inputs _

theorem consistent_hostWrite {s : State} (h : Consistent s) (off : Offset) (size : AccessSize)
    (v : Word) : Consistent (hostWrite off size v s) := by
  have h0 : Consistent { s with rdata := none } := consistent_schedule h s.inputs none
  rcases hostWrite_cases off size v s with ⟨-, e⟩ | ⟨hr, -, e⟩ | ⟨hr, ha, e⟩ <;> rw [e]
  · exact h0
  · exact consistent_refuseAccess h hr none
  · obtain rfl : size = .four := by
      by_contra hs
      exact ha (.inl hs)
    exact consistent_writeTarget h0 hr v ha

/-! ## The sequencer and the entropy source (40 R123, R131) -/

/-- While BUSY = 1 the block is released, since a held reset is IDLE (70 R280). -/
theorem released_of_busy {s : State} {snap : Snapshot} (h : Consistent s)
    (hp : s.phase = .busy snap) : s.rstHeld = false := by
  cases hr : s.rstHeld with
  | false => rfl
  | true =>
    obtain ⟨-, -, hidle, -⟩ := h.held hr
    simp [hp] at hidle

/-- A completion leaves a record with a code, no request and an output that is in the buffer (40 R124), whatever
stood on the entropy port. -/
theorem consistent_of_completes {s t : State} {snap : Snapshot} {answer : Option EntropyWord}
    (h : Consistent s) (hp : s.phase = .busy snap)
    (hc : Completes { s with entData := answer } snap t) : Consistent t := by
  obtain ⟨code, n, buf, ops, rfl, hcode, hn, hfit, hwf, hbelow, -⟩ := hc
  exact {
    bufSize_legal := h.bufSize_legal
    buf_wf := hwf h.buf_wf
    buf_below := hbelow h.buf_below
    port_clear := rfl
    busy_record := fun _ e => by simp at e
    busy_operands := fun _ e => by simp at e
    request := fun e => by simp at e
    done_record := fun _ => hcode
    outlen_ok := fun e => by simp [hn e]
    outlen_fits := by
      have hn' : n ≤ s.bufSize := hfit
      simp only [finish_outlen, finish_bufSize, BitVec.toNat_ofNat]
      exact (Nat.mod_le _ _).trans hn'
    held := not_held (s := s) (released_of_busy h hp) }

/-- The wait for the entropy source raises the request of an ENCRYPT that passed its checks (40 R131). -/
theorem consistent_requestEntropy {s : State} {snap : Snapshot} (h : Consistent s)
    (hp : s.phase = .busy snap) (ha : AwaitsEntropy s snap) : Consistent (requestEntropy s) :=
  { h with
    port_clear := rfl
    request := fun _ => ⟨snap, hp, ha⟩
    held := not_held (s := s) (released_of_busy h hp) }

/-- A turn of the sequencer while BUSY = 1, with or without an answer on the entropy port. -/
theorem consistent_sequencerTurn_busy {s t : State} {snap : Snapshot} {answer : Option EntropyWord}
    (h : Consistent s) (hp : s.phase = .busy snap)
    (e : sequencerTurn { s with entData := answer } = .next t) : Consistent t := by
  rcases sequencerTurn_busy (s := { s with entData := answer }) hp with ⟨u, e', hc⟩ | ⟨ha, -, e'⟩ <;>
    rw [e'] at e <;> cases e
  · exact consistent_of_completes h hp hc
  · exact consistent_requestEntropy (s := s) h hp ha

theorem consistent_sequencerTurn {s t : State} (h : Consistent s) (e : sequencerTurn s = .next t) :
    Consistent t := by
  cases hp : s.phase with
  | idle =>
    rw [sequencerTurn_idle hp] at e
    cases e
    exact h
  | busy snap => exact consistent_sequencerTurn_busy (answer := s.entData) h hp e

theorem consistent_entropyAnswer {s t : State} {d : EntropyWord} (h : Consistent s)
    (e : entropyAnswer d s = .next t) : Consistent t := by
  rcases entropyAnswer_cases d s with ⟨-, e'⟩ | ⟨snap, hp, -, e'⟩ <;> rw [e'] at e
  · cases e
    exact h
  · exact consistent_sequencerTurn_busy h hp e

/-! ## Every step -/

theorem consistent_applyInput {s t : State} {e : Input} (h : Consistent s)
    (ht : applyInput e s = .next t) : Consistent t := by
  cases e with
  | hostRead off size =>
    cases ht
    exact consistent_hostRead h off size
  | hostWrite off size v =>
    cases ht
    exact consistent_hostWrite h off size v
  | sequencer => exact consistent_sequencerTurn h ht
  | entropy d => exact consistent_entropyAnswer h ht
  | assertReset =>
    cases ht
    exact consistent_warmReset h
  | releaseReset =>
    cases ht
    exact consistent_releaseReset h
  | powerOn bufInit =>
    cases ht
    exact consistent_powerOnReset bufInit h

/-- Settles O7: each operation of each agent keeps `Consistent`. -/
theorem stepKeepsConsistent : Obligations.StepKeepsConsistent := by
  intro s t h e
  cases hi : s.inputs with
  | nil =>
    rw [step_nil hi] at e
    exact consistent_sequencerTurn h e
  | cons x rest =>
    rw [step_cons hi] at e
    exact consistent_applyInput (consistent_schedule h rest s.rdata) e

theorem registersReset_reset : RegistersReset State.reset := ⟨rfl, rfl, rfl, rfl, rfl, rfl, rfl, rfl, rfl⟩

/-- Settles O6. -/
theorem resetStateIsConsistent : Obligations.ResetStateIsConsistent :=
  ⟨consistent_of_registersReset (by decide) rfl rfl rfl registersReset_reset, registersReset_reset,
    rfl, rfl, rfl, rfl, sequencerTurn_idle rfl⟩

end Sys2Proof.Machine
end

section
/-!
The state a reset leaves (spec 10 R61, R62).
-/

namespace Sys2Proof.Machine

/-- The step of a reset, power-on or warm, gives every register its reset value and keeps BUF_SIZE. -/
theorem step_reset {s : State} {e : Input} {rest : List Input} (hi : s.inputs = e :: rest)
    (he : e = .assertReset ∨ ∃ bufInit, e = .powerOn bufInit) :
    ∃ t, step s = .next t ∧ RegistersReset t ∧ t.bufSize = s.bufSize := by
  rw [step_cons hi]
  rcases he with rfl | ⟨bufInit, rfl⟩
  · exact ⟨_, rfl, registersReset_warmReset _, rfl⟩
  · exact ⟨_, rfl, registersReset_powerOnReset _ _, rfl⟩

/-- What the words of the control and status registers and the outputs show after a reset. -/
theorem words_of_registersReset {t : State} (h : RegistersReset t) :
    ctrlWord t = 0 ∧ statusWord t = 0 ∧ resultWord t = 0 ∧ entReqOut t = false ∧ irq t = false := by
  obtain ⟨hiv, hie, hp, hd, ha, hres, -, -, hreq⟩ := h
  have hirq : irq t = false := by simp [irq, hd]
  have hbusy : isBusy t = false := isBusy_eq_false.mpr hp
  refine ⟨?_, ?_, ?_, hreq, hirq⟩
  · rw [ctrlWord, hiv, hie]
    rfl
  · rw [statusWord, hirq, ha, hd, hbusy]
    rfl
  · rw [resultWord, hres]
    rfl

/-- Cleared operand registers are 0, one by one. -/
theorem key_cleared (i : Fin 16) : OperandRegs.cleared.key[i] = 0 := by simp [OperandRegs.cleared]

theorem iv_cleared (i : Fin 4) : OperandRegs.cleared.iv[i] = 0 := by simp [OperandRegs.cleared]

/-- An ENCRYPT or a DECRYPT accepted with a wrong KEYLEN fails the key check (40 R129). -/
theorem exec_accept_of_keylen {t : State} {i : Instr} (hi : i = .encrypt ∨ i = .decrypt)
    (hk : t.ops.keylen.toNat ≠ 64) :
    exec i (accept (encode i) t) = .next (finish .invalidCryptoKey 0 (accept (encode i) t)) := by
  rcases hi with rfl | rfl
  · rcases execEncrypt_cases (accept_phase (encode .encrypt) t) with
      ⟨-, e⟩ | ⟨h, -⟩ | ⟨h, -⟩ | ⟨-, h, -⟩
    · exact e
    all_goals exact absurd h hk
  · rcases execDecrypt_cases (accept_phase (encode .decrypt) t) with
      ⟨-, e⟩ | ⟨h, -⟩ | ⟨h, -⟩ | ⟨-, h, -⟩
    · exact e
    all_goals exact absurd h hk

/-- Settles O8: either reset gives `RegistersReset`, and every value asked for is one of its. -/
theorem resetGivesEveryRegisterItsValue : Obligations.ResetGivesEveryRegisterItsValue := by
  intro s e rest hi he
  obtain ⟨t, hstep, hreset, hsize⟩ := step_reset hi he
  obtain ⟨hctrl, hstatus, hresult, hreq, hirq⟩ := words_of_registersReset hreset
  obtain ⟨hiv, hie, hp, hd, ha, hres, hout, hops, -⟩ := hreset
  have hkey : t.ops.keylen.toNat ≠ 64 := by simp [hops, OperandRegs.cleared]
  refine ⟨t, hstep, rfl, rfl, congrArg (BitVec.ofNat 32) hsize, hsize, hiv, hie, hctrl, hstatus, hd, ha,
    hres, hresult, hout, ?_, ?_, ?_, ?_, ?_, ?_, ?_, ?_, hreq, hreq, hirq, hp,
    fun i hcmd => ⟨_, exec_accept_of_keylen hcmd hkey, rfl, rfl⟩⟩ <;> rw [hops]
  any_goals rfl
  · exact key_cleared
  · exact iv_cleared

/-- Settles O10: a power-on writes the whole of BUF_INIT from offset 0 on. -/
theorem powerOnGivesEveryBufInit : Obligations.PowerOnGivesEveryBufInit := by
  intro s bufInit rest hi hl
  refine ⟨_, by rw [step_cons hi]; rfl, ?_⟩
  rw [powerOnReset_buf, ← hl, List.take_length, Memory.readBytes_writeBytes]

end Sys2Proof.Machine
end

section
/-!
The registers through the host port: what a legal write stores and what a read shows (spec 10 R33 to R52).
-/

namespace Sys2Proof.Machine

/-- What the port answers to a read that is let through. -/
theorem rdata_hostRead_open {t : State} {off : Offset} (hr : t.rstHeld = false)
    (ha : ¬RefusedAccess t off .four) :
    (hostRead off .four t).rdata = some (readTarget t (targetOf t.bufSize off)) := by
  rw [hostRead_open hr ha]

/-- What a target reads does not depend on the schedule or on the last answer. -/
theorem readTarget_schedule (s : State) (rest : List Input) (answer : Option Word) (t : Target) :
    readTarget { s with inputs := rest, rdata := answer } t = readTarget s t := by
  cases t <;> rfl

/-! ## STATUS and the interrupt (10 R37, R41) -/

/-- A Boolean that a bit clears. -/
theorem and_not_eq_ite (b c : Bool) : (b && !c) = if c then false else b := by
  cases b <;> cases c <;> rfl

/-- Settles O22: the write is `writeStatus`, and the read shows `statusWord` bit by bit. -/
theorem statusWriteClearsAndNeverSets : Obligations.StatusWriteClearsAndNeverSets := by
  refine ⟨(words_of_registersReset registersReset_reset).2.1, fun s v rest hr => ⟨fun hi => ?_, fun hi => ?_⟩⟩
  · rw [step_write_status hi hr]
    simp only [writeStatus, and_not_eq_ite]
  · refine ⟨statusWord s, ?_, ?_⟩
    · rw [step_read_open hi hr (not_refused_of_low (by decide) (by decide)), targetOf_status]
      rfl
    · refine ⟨getLsbD_statusWord s 0, getLsbD_statusWord s 1, getLsbD_statusWord s 2,
        getLsbD_statusWord s 3, fun i hi => ?_⟩
      rw [getLsbD_statusWord]
      match i, hi with
      | _ + 4, _ => rfl

/-- Settles O23. -/
theorem irqIsDoneAndEnabled : Obligations.IrqIsDoneAndEnabled :=
  ⟨fun s => ⟨rfl, getLsbD_statusWord s 3⟩, fun s t hd hie => by rw [irq, irq, hd, hie]⟩

/-! ## CTRL (10 R36) -/

/-- CTRL reads as the two bits last written to it. -/
theorem ctrlWord_writeCtrl (v : Word) (s : State) : ctrlWord (writeCtrl v s) = v &&& 3 := by
  have high : ∀ i < 32, 2 ≤ i → (3 : Word).getLsbD i = false := by decide
  apply BitVec.eq_of_getLsbD_eq
  intro i hi
  rw [getLsbD_ctrlWord, BitVec.getLsbD_and]
  match i with
  | 0 => simp
  | 1 => simp
  | i + 2 =>
    rw [high _ hi (by omega), Bool.and_false]
    rfl

/-- Settles O21. -/
theorem ctrlWriteStoresTwoBits : Obligations.CtrlWriteStoresTwoBits := by
  intro s v rest hr hi
  have open_ctrl : ∀ t : State, ¬RefusedAccess t 0x00C .four :=
    fun t => not_refused_of_low (by decide) (by decide)
  refine ⟨writeCtrl v { s with inputs := rest, rdata := none }, ?_, rfl, ?_, rfl⟩
  · rw [step_write_open hi hr (open_ctrl s), targetOf_ctrl]
    rfl
  · refine (rdata_hostRead_open ?_ (open_ctrl _)).trans ?_
    · exact hr
    · rw [targetOf_ctrl]
      exact congrArg some (ctrlWord_writeCtrl v _)

/-! ## The read-only registers (10 R33 to R35, R42, R43) -/

/-- Settles O24: the three registers are open in either phase, so neither access is refused. -/
theorem identityRegistersAreConstant : Obligations.IdentityRegistersAreConstant := by
  intro s off v rest hr ho
  have hopen : ¬RefusedAccess s off .four := by
    rcases ho with rfl | rfl | rfl <;> exact not_refused_of_low (by decide) (by decide)
  refine ⟨fun hi => ?_, fun hi => ?_⟩
  · rw [step_read_open hi hr hopen]
    rcases ho with rfl | rfl | rfl
    · rw [targetOf_id]
      rfl
    · rw [targetOf_version]
      rfl
    · rw [targetOf_param]
      rfl
  · rw [step_write_open hi hr hopen]
    rcases ho with rfl | rfl | rfl <;> simp only [targetOf_id, targetOf_version, targetOf_param, writeTarget]

/-- RESULT reads as its code, with nothing above (10 R42). -/
theorem toNat_resultWord (s : State) : (resultWord s).toNat = s.result.bits.toNat := by
  unfold resultWord
  cases s.result <;> rfl

/-- Settles O25. -/
theorem recordRegistersAreReadOnly : Obligations.RecordRegistersAreReadOnly := by
  intro s v rest hr
  refine ⟨fun hi => ⟨resultWord s, ?_, ?_⟩, fun hi => ?_, fun off ho hi => ?_⟩
  · rw [step_read_open hi hr (not_refused_of_low (by decide) (by decide)), targetOf_result]
    rfl
  · rw [toNat_resultWord]
    cases s.result <;> simp [ResultCode.bits]
  · rw [step_read_open hi hr (not_refused_of_low (by decide) (by decide)), targetOf_outlen]
    rfl
  · rcases ho with rfl | rfl
    · rw [step_write_open hi hr (not_refused_of_low (by decide) (by decide)), targetOf_result]
      rfl
    · rw [step_write_open hi hr (not_refused_of_low (by decide) (by decide)), targetOf_outlen]
      rfl

/-! ## The operand registers (10 R45 to R50, R52) -/

/-- The registers that hold, and read as, the word last written to them. -/
def holdsWord : Target → Bool
  | .keylen | .aadoff | .aadlen | .inoff | .inlen | .outoff => true
  | .iv _ => true
  | _ => false

/-- The registers that hold a word by offset (10 R32). -/
theorem holdsWord_registerAt : ∀ o, o < 0x100 → o % 4 = 0 →
    (0x20 ≤ o ∧ o ≤ 0x34) ∨ (0x80 ≤ o ∧ o < 0x90) → holdsWord (registerAt o) = true := by
  decide +kernel

/-- A write of such a register touches the operand registers alone, and not the key file. -/
theorem writeTarget_of_holdsWord {t : Target} (h : holdsWord t = true) (v : Word) (s : State) :
    writeTarget v s t = { s with ops := (writeTarget v s t).ops } ∧
      (writeTarget v s t).ops.key = s.ops.key := by
  cases t with
  | keylen | aadoff | aadlen | inoff | inlen | outoff | iv => exact ⟨rfl, rfl⟩
  | _ => cases h

theorem readTarget_writeTarget_same {t : Target} (h : holdsWord t = true) (v : Word) (s : State) :
    readTarget (writeTarget v s t) t = v := by
  cases t with
  | keylen | aadoff | aadlen | inoff | inlen | outoff => rfl
  | iv i => simp [writeTarget, readTarget]
  | _ => cases h

/-- Every other target reads as before. -/
theorem readTarget_writeTarget_of_ne {t u : Target} (h : holdsWord t = true) (hne : u ≠ t) (v : Word)
    (s : State) : readTarget (writeTarget v s t) u = readTarget s u := by
  cases t with
  | keylen | aadoff | aadlen | inoff | inlen | outoff =>
    cases u
    any_goals rfl
    exact absurd rfl hne
  | iv i =>
    cases u with
    | iv j =>
      have hij : i.val ≠ j.val := fun e => hne (by rw [Fin.ext e])
      simp [writeTarget, readTarget, hij]
    | _ => rfl
  | _ => cases h

/-- Two aligned offsets that lead to one register are one offset. -/
theorem targetOf_ne {b : Nat} {off off' : Offset} (h : off.toNat % 4 = 0) (h' : off'.toNat % 4 = 0)
    (ht : holdsWord (targetOf b off) = true) (hne : off' ≠ off) : targetOf b off' ≠ targetOf b off := by
  intro e
  have hr : targetOf b off ≠ .reserved := fun e' => by simp [e', holdsWord] at ht
  have hu : targetOf b off ≠ .unmapped := fun e' => by simp [e', holdsWord] at ht
  exact hne (BitVec.eq_of_toNat_eq
    ((offset_of_targetOf h' e hr hu).trans (offset_of_targetOf h rfl hr hu).symm))

/-- Settles O19: the offset leads to a register that holds a word, and no other offset leads there. -/
theorem operandRegisterHoldsWhatIsWritten : Obligations.OperandRegisterHoldsWhatIsWritten := by
  intro s off v rest hr hp ho hrange hi
  have hlow : off.toNat < 0x100 := by omega
  have hholds : holdsWord (targetOf s.bufSize off) = true := by
    rw [targetOf_register hlow]
    exact holdsWord_registerAt _ hlow ho hrange
  obtain ⟨hframe, hkey⟩ := writeTarget_of_holdsWord hholds v { s with inputs := rest, rdata := none }
  refine ⟨_, step_write_open hi hr (not_refused_of_idle hp ho), ?_⟩
  generalize ht : writeTarget v { s with inputs := rest, rdata := none } (targetOf s.bufSize off) = t at *
  have hread : ∀ off' : Offset, off'.toNat % 4 = 0 →
      (hostRead off' .four t).rdata = some (readTarget t (targetOf s.bufSize off')) := by
    intro off' ho'
    have hr' : t.rstHeld = false := (congrArg State.rstHeld hframe).trans hr
    have hp' : t.phase = .idle := (congrArg State.phase hframe).trans hp
    have hb' : t.bufSize = s.bufSize := by rw [hframe]
    rw [rdata_hostRead_open hr' (not_refused_of_idle hp' ho'), hb']
  refine ⟨?_, fun off' ho' hne => ?_, hframe, hkey⟩
  · rw [hread off ho, ← ht, readTarget_writeTarget_same hholds]
  · rw [hread off' ho', rdata_hostRead_open hr (not_refused_of_idle hp ho'), ← ht,
      readTarget_writeTarget_of_ne hholds (targetOf_ne ho ho' hholds hne), readTarget_schedule]

/-! ## The key registers (10 R51) -/

theorem targetOf_key {b : Nat} {off : Offset} {i : Fin 16} (h : off.toNat = 0x40 + 4 * i.val) :
    targetOf b off = .key i := by
  rw [targetOf_register (by omega), h, registerAt_key]

/-- The bytes of a register file after a write of one register: those of the register. -/
theorem getD_fileBytes_set_same {n : Nat} (file : Vector Word n) (i : Fin n) (v : Word) {j : Nat}
    (hj : j < 4) : (fileBytes (file.set i v)).getD (4 * i.val + j) 0 = lane v j := by
  rw [getD_fileBytes _ i j hj]
  simp

/-- The bytes of every other register, and past the end of the file, stay. -/
theorem getD_fileBytes_set_of_ne {n : Nat} (file : Vector Word n) (i : Fin n) (v : Word) {b : Nat}
    (hb : ¬(4 * i.val ≤ b ∧ b < 4 * i.val + 4)) :
    (fileBytes (file.set i v)).getD b 0 = (fileBytes file).getD b 0 := by
  by_cases hn : b < 4 * n
  · obtain ⟨r, j, hj, rfl⟩ : ∃ (r : Fin n) (j : Nat), j < 4 ∧ b = 4 * r.val + j :=
      ⟨⟨b / 4, by omega⟩, b % 4, by omega, by simp only; omega⟩
    have hir : i.val ≠ r.val := by omega
    rw [getD_fileBytes _ r j hj, getD_fileBytes _ r j hj]
    simp [hir]
  · rw [List.getD_eq_default _ _ (by simpa using hn), List.getD_eq_default _ _ (by simpa using hn)]

/-- Settles O20: the write sets one register of the key file. -/
theorem keyRegisterWriteStoresFourBytes : Obligations.KeyRegisterWriteStoresFourBytes := by
  intro s i off v rest hr hp ho hi
  have hopen : ∀ t : State, t.phase = .idle → ¬RefusedAccess t off .four :=
    fun t ht => not_refused_of_idle ht (by omega)
  refine ⟨_, step_write_open hi hr (hopen s hp), ?_⟩
  rw [targetOf_key ho]
  refine ⟨rfl, fun j hj => getD_fileBytes_set_same _ i v hj,
    fun b hb => getD_fileBytes_set_of_ne _ i v hb, ?_⟩
  refine (rdata_hostRead_open ?_ (hopen _ ?_)).trans ?_
  · exact hr
  · exact hp
  · rw [targetOf_key ho]
    rfl

end Sys2Proof.Machine
end

section
/-!
What host accesses cannot do: disturb a running command (spec 10 R58) and show key material (60 R272).
-/

namespace Sys2Proof.Machine

theorem nextIsReset_of_nextAccesses {s : State} {off : Offset} {size : AccessSize}
    (h : nextAccesses s off size) : nextIsReset s = false := by
  rcases h with ⟨rest, hi⟩ | ⟨v, rest, hi⟩ <;> simp [nextIsReset, hi]

/-- Settles O28: a write that is let through while BUSY = 1 is one of CTRL, of STATUS or of nothing. -/
theorem hostCannotDisturbARunningCommand : Obligations.HostCannotDisturbARunningCommand := by
  intro s t snap off size hp ha e
  cases step_cases e with
  | reset isReset _ =>
    rw [nextIsReset_of_nextAccesses ha] at isReset
    cases isReset
  | refused _ _ _ _ _ _ _ after =>
    subst after
    exact ⟨hp, rfl, rfl, rfl, rfl, rfl, rfl, rfl⟩
  | write o v rest _ _ accepted after =>
    subst after
    rcases writeTarget_of_open (v := v) (s := { s with inputs := rest, rdata := none })
      (open_of_not_refused accepted (isBusy_iff.mpr ⟨snap, hp⟩)) with ⟨-, h⟩ | ⟨-, h⟩ | ⟨-, -, h⟩ <;>
    · rw [h]
      exact ⟨hp, rfl, rfl, rfl, rfl, rfl, rfl, rfl⟩
  | completes _ _ _ _ _ _ _ _ _ _ noAccess _ => exact absurd ha (noAccess off size)
  | waits _ _ _ _ noAccess _ => exact absurd ha (noAccess off size)
  | quiet _ _ _ _ _ after =>
    subst after
    exact ⟨hp, rfl, rfl, rfl, rfl, rfl, rfl, rfl⟩

/-- The state with another key file and another snapshot. -/
def withSecrets (ph : Phase) (k : Vector Word 16) (s : State) : State :=
  { s with phase := ph, ops := { s.ops with key := k } }

section
variable {s : State} {ph : Phase} (k : Vector Word 16) (hb : isBusy { s with phase := ph } = isBusy s)
include hb

theorem isBusy_withSecrets : isBusy (withSecrets ph k s) = isBusy s := hb

theorem readTarget_withSecrets (t : Target) :
    readTarget (withSecrets ph k s) t = readTarget s t := by
  cases t with
  | status =>
    simp only [readTarget, statusWord, isBusy_withSecrets k hb]
    rfl
  | _ => rfl

theorem refused_withSecrets (off : Offset) (size : AccessSize) :
    refused off size (withSecrets ph k s) = refused off size s := by
  simp only [refused, isBusy_withSecrets k hb]
  rfl

/-- A read does the same whatever the key file and the snapshot hold. -/
theorem hostRead_withSecrets (off : Offset) (size : AccessSize) :
    hostRead off size (withSecrets ph k s) = withSecrets ph k (hostRead off size s) := by
  simp only [hostRead, refused_withSecrets k hb, readTarget_withSecrets k hb]
  cases hr : s.rstHeld <;> cases refused off size s <;> simp [withSecrets, hr, refuseAccess]

end

theorem hostRead_ops (off : Offset) (size : AccessSize) (s : State) :
    (hostRead off size s).ops = s.ops := by
  rcases hostRead_cases off size s with ⟨-, e⟩ | ⟨-, -, e⟩ | ⟨-, -, e⟩ <;> rw [e]

/-- Settles O29: a read commutes with a change of the key file and the snapshot. -/
theorem noHostReadDependsOnTheKey : Obligations.NoHostReadDependsOnTheKey := by
  intro s k ph off size rest hb hi
  have hread := hostRead_withSecrets (s := { s with inputs := rest }) k hb off size
  have hdata := congrArg State.rdata hread
  refine ⟨_, _, step_cons hi, step_cons (s := withSecrets ph k s) hi, hdata, ?_⟩
  refine hread.trans ?_
  rw [withSecrets, hostRead_ops]

end Sys2Proof.Machine
end

section
/-!
Rules of the whole block: what any step can do to ACCERR, DONE, BUSY and the key file (spec 10 R38 to R40, R51).
-/

namespace Sys2Proof.Machine

/-! ## Resets among the steps -/

theorem nextIsReset_iff {s : State} : nextIsReset s = true ↔
    ∃ e rest, s.inputs = e :: rest ∧ (e = .assertReset ∨ ∃ bufInit, e = .powerOn bufInit) := by
  constructor
  · intro h
    unfold nextIsReset at h
    split at h
    · exact ⟨_, _, ‹_›, .inl rfl⟩
    · exact ⟨_, _, ‹_›, .inr ⟨_, rfl⟩⟩
    · cases h
  · rintro ⟨e, rest, hi, rfl | ⟨bufInit, rfl⟩⟩ <;> simp [nextIsReset, hi]

theorem registersReset_of_nextIsReset {s t : State} (h : nextIsReset s = true)
    (e : step s = .next t) : RegistersReset t := by
  obtain ⟨x, rest, hi, hx⟩ := nextIsReset_iff.mp h
  obtain ⟨u, hu, hreset, -⟩ := step_reset hi hx
  rw [hu] at e
  cases e
  exact hreset

theorem isBusy_congr {s t : State} (h : t.phase = s.phase) : isBusy t = isBusy s := by
  rw [isBusy, isBusy, h]

/-! ## Writes by target -/

theorem writeTarget_accerr_of_ne {t : Target} (h : t ≠ .status) (v : Word) (s : State) :
    (writeTarget v s t).accerr = s.accerr := by
  cases t with
  | status => exact absurd rfl h
  | _ => rfl

theorem writeTarget_done_of_ne {t : Target} (hs : t ≠ .status) (hc : t ≠ .cmd) (v : Word) (s : State) :
    (writeTarget v s t).done = s.done ∧ (writeTarget v s t).phase = s.phase := by
  cases t with
  | status => exact absurd rfl hs
  | cmd => exact absurd rfl hc
  | _ => exact ⟨rfl, rfl⟩

theorem writeTarget_key_of_ne {t : Target} (h : ∀ i, t ≠ .key i) (v : Word) (s : State) :
    (writeTarget v s t).ops.key = s.ops.key := by
  cases t with
  | key i => exact absurd rfl (h i)
  | _ => rfl

/-! ## ACCERR (10 R40) -/

/-- All a step can do to ACCERR. -/
theorem accerr_cases {s t : State} (e : step s = .next t) :
    (nextIsReset s = true ∧ t.accerr = false) ∨
    (t.accerr = true ∧ s.rstHeld = false ∧ ∃ off size, nextAccesses s off size ∧ RefusedAccess s off size) ∨
    (∃ v, nextWrites s 0x010 v ∧ t.accerr = (s.accerr && !v.getLsbD 2)) ∨
    t.accerr = s.accerr := by
  cases step_cases e with
  | reset isReset registers =>
    obtain ⟨-, -, -, -, ha, -⟩ := registers
    exact .inl ⟨isReset, ha⟩
  | refused off size rest answer access released refusal after =>
    subst after
    exact .inr (.inl ⟨rfl, released, off, size, access, refusal⟩)
  | write off v rest next released accepted after =>
    subst after
    by_cases ht : targetOf s.bufSize off = .status
    · obtain rfl := eq_status_of_targetOf (aligned_of_not_refused accepted) ht
      exact .inr (.inr (.inl ⟨v, ⟨rest, next⟩, by rw [ht]; rfl⟩))
    · exact .inr (.inr (.inr (writeTarget_accerr_of_ne ht v _)))
  | completes _ _ _ _ _ _ _ _ _ _ _ after
  | waits _ _ _ _ _ after
  | quiet _ _ _ _ _ after =>
    subst after
    exact .inr (.inr (.inr rfl))

/-- A refused access sets ACCERR. -/
theorem accerr_of_refused {s t : State} {off : Offset} {size : AccessSize} (hr : s.rstHeld = false)
    (ha : nextAccesses s off size) (hx : RefusedAccess s off size) (e : step s = .next t) :
    t.accerr = true := by
  cases step_cases e with
  | reset isReset _ =>
    rw [nextIsReset_of_nextAccesses ha] at isReset
    cases isReset
  | refused _ _ _ _ _ _ _ after =>
    subst after
    rfl
  | write o v rest next _ accepted _ =>
    rcases ha with ⟨r, h⟩ | ⟨w, r, h⟩ <;> rw [next] at h <;> cases h
    exact absurd hx accepted
  | completes _ _ _ _ _ _ _ _ _ _ noAccess _ => exact absurd ha (noAccess off size)
  | waits _ _ _ _ noAccess _ => exact absurd ha (noAccess off size)
  | quiet _ _ _ _ noRefusal _ => exact absurd hx (noRefusal off size ha hr)

theorem phase_cases (s : State) : s.phase = .idle ∨ ∃ snap, s.phase = .busy snap := by
  cases s.phase <;> simp

theorem complete_idle {run : Snapshot → State → State} {s : State} (hp : s.phase = .idle) :
    complete s run = .next s := by simp [complete, hp]

theorem complete_busy {run : Snapshot → State → State} {s : State} {snap : Snapshot}
    (hp : s.phase = .busy snap) : complete s run = .next (run snap s) := by simp [complete, hp]

/-- A completion whose effect does not depend on ACCERR keeps it. -/
theorem complete_accerr {run : Snapshot → State → State} {s u : State} {b : Bool}
    (h : complete s run = .next u)
    (hrun : ∀ snap, (run snap s).accerr = s.accerr ∧
      run snap { s with accerr := b } = { run snap s with accerr := b }) :
    u.accerr = s.accerr ∧ complete { s with accerr := b } run = .next { u with accerr := b } := by
  rcases phase_cases s with hp | ⟨snap, hp⟩
  · rw [complete_idle hp] at h
    cases h
    exact ⟨rfl, complete_idle (s := { s with accerr := b }) hp⟩
  · obtain ⟨hkeep, hsame⟩ := hrun snap
    rw [complete_busy hp] at h
    cases h
    exact ⟨hkeep, (complete_busy (s := { s with accerr := b }) hp).trans (congrArg _ hsame)⟩

/-- No command reads or changes ACCERR. -/
theorem exec_accerr {i : Instr} {s u : State} {b : Bool} (h : exec i s = .next u) :
    u.accerr = s.accerr ∧ exec i { s with accerr := b } = .next { u with accerr := b } := by
  cases i with
  | nop =>
    simp only [exec, execNop] at h ⊢
    exact complete_accerr h fun _ => ⟨rfl, rfl⟩
  | encrypt =>
    simp only [exec, execEncrypt] at h ⊢
    refine complete_accerr h fun snap => ?_
    have hiv : obtainIv snap { s with accerr := b } = obtainIv snap s := rfl
    rw [hiv]
    dsimp only
    split
    · exact ⟨rfl, rfl⟩
    · split
      · exact ⟨rfl, rfl⟩
      · cases obtainIv snap s <;> exact ⟨rfl, rfl⟩
  | decrypt =>
    simp only [exec, execDecrypt] at h ⊢
    refine complete_accerr h fun snap => ?_
    have hin : inputOperand snap { s with accerr := b } = inputOperand snap s := rfl
    have haad : aadOperand snap { s with accerr := b } = aadOperand snap s := rfl
    rw [hin, haad]
    dsimp only
    split
    · exact ⟨rfl, rfl⟩
    · split
      · exact ⟨rfl, rfl⟩
      · split <;> exact ⟨rfl, rfl⟩
  | zeroize =>
    simp only [exec, execZeroize] at h ⊢
    exact complete_accerr h fun _ => ⟨rfl, rfl⟩

/-- Settles O48, by what each kind of step does to ACCERR. -/
theorem accerrIsSticky : Obligations.AccerrIsSticky := by
  intro s t e
  refine ⟨fun hs ht => ?_, fun hs ht => ?_, fun hr off size ha hx => accerr_of_refused hr ha hx e,
    fun h => ?_, ?_, fun i b u h => exec_accerr h, fun _ => rfl⟩
  · rcases accerr_cases e with ⟨h, -⟩ | ⟨h, -⟩ | ⟨v, hw, h⟩ | h
    · exact .inl h
    · simp [h] at ht
    · exact .inr ⟨v, hw, by simpa [h, hs] using ht⟩
    · simp [h, hs] at ht
  · rcases accerr_cases e with ⟨-, h⟩ | ⟨-, h⟩ | ⟨v, -, h⟩ | h
    · simp [h] at ht
    · exact h
    · simp [h, hs] at ht
    · simp [h, hs] at ht
  · obtain ⟨-, -, -, -, ha, -⟩ := registersReset_of_nextIsReset h e
    exact ha
  · rintro hr v ⟨rest, hi⟩ hv
    rw [step_write_status hi hr] at e
    cases e
    simp [hv]

/-! ## The life of a command (10 R31, R38, R39) -/

/-- The kinds of step by what they do to BUSY and DONE. -/
inductive CommandStep (s t : State) : Prop
  /-- A reset (70 R280). -/
  | reset (isReset : nextIsReset s = true) (registers : RegistersReset t)
  /-- An acceptance (40 R121). -/
  | accepts (v : Word) (write : nextWrites s 0x01C v) (released : s.rstHeld = false)
      (idle : isBusy s = false) (busy : isBusy t = true) (done : t.done = false)
  /-- A completion (40 R124). -/
  | completes (noReset : nextIsReset s = false) (busy : isBusy s = true) (idle : isBusy t = false)
      (done : t.done = true) (result : t.result ≠ .none) (enable : t.ie = s.ie)
  /-- A write of STATUS (10 R37). -/
  | clears (v : Word) (write : nextWrites s 0x010 v) (phase : t.phase = s.phase)
      (done : t.done = (s.done && !v.getLsbD 1))
  /-- Everything else. -/
  | keeps (phase : t.phase = s.phase) (done : t.done = s.done)

/-- A write that is let through accepts a command, clears DONE or leaves both BUSY and DONE. -/
theorem commandStep_write {s : State} {off : Offset} {v : Word} {rest : List Input}
    (next : s.inputs = .hostWrite off .four v :: rest) (released : s.rstHeld = false)
    (accepted : ¬RefusedAccess s off .four) :
    CommandStep s (writeTarget v { s with inputs := rest, rdata := none } (targetOf s.bufSize off)) := by
  have ho := aligned_of_not_refused accepted
  by_cases hc : targetOf s.bufSize off = .cmd
  · have hidle := idle_of_not_refused accepted (by rw [hc]; rfl)
    obtain rfl := eq_cmd_of_targetOf ho hc
    rw [hc]
    exact .accepts v ⟨rest, next⟩ released hidle rfl rfl
  · by_cases hs : targetOf s.bufSize off = .status
    · obtain rfl := eq_status_of_targetOf ho hs
      rw [hs]
      exact .clears v ⟨rest, next⟩ rfl rfl
    · obtain ⟨hd, hp⟩ := writeTarget_done_of_ne hs hc v { s with inputs := rest, rdata := none }
      exact .keeps hp hd

/-- All a step can do to BUSY and DONE. -/
theorem commandStep_of_step {s t : State} (e : step s = .next t) : CommandStep s t := by
  cases step_cases e with
  | reset isReset registers => exact .reset isReset registers
  | write off v rest next released accepted after =>
    subst after
    exact commandStep_write next released accepted
  | completes snap code n buf ops rest busy hasCode operands noReset noAccess after =>
    subst after
    exact .completes noReset (isBusy_iff.mpr ⟨snap, busy⟩) rfl rfl hasCode rfl
  | refused _ _ _ _ _ _ _ after
  | waits _ _ _ _ _ after
  | quiet _ _ _ _ _ after =>
    subst after
    exact .keeps rfl rfl

/-- A legal write of CMD while IDLE clears DONE (40 R121). -/
theorem done_of_write_cmd {s t : State} {v : Word} (hr : s.rstHeld = false) (hb : isBusy s = false)
    (hw : nextWrites s 0x01C v) (e : step s = .next t) : t.done = false := by
  obtain ⟨rest, hi⟩ := hw
  rw [step_write_open hi hr (not_refused_of_idle (isBusy_eq_false.mp hb) (by decide)), targetOf_cmd] at e
  cases e
  rfl

/-- Settles O49, by what each kind of step does to BUSY and DONE. -/
theorem doneMarksCompletions : Obligations.DoneMarksCompletions := by
  intro s t e
  refine ⟨fun hs ht hn => ?_, fun hs ht => ?_, fun hs ht => ?_, fun h => ?_, ?_,
    fun hr hb v hw => done_of_write_cmd hr hb hw e⟩
  · cases commandStep_of_step e with
    | reset isReset => simp [hn] at isReset
    | accepts _ _ _ idle => simp [hs] at idle
    | completes _ _ _ done _ enable => exact ⟨done, by rw [irq, done, enable, Bool.true_and]⟩
    | clears _ _ phase | keeps phase => simp [isBusy_congr phase, hs] at ht
  · cases commandStep_of_step e with
    | reset _ registers =>
      obtain ⟨-, -, -, hd, -⟩ := registers
      simp [hd] at ht
    | accepts _ _ _ _ _ done => simp [done] at ht
    | completes noReset busy idle => exact ⟨busy, idle, noReset⟩
    | clears _ _ _ done | keeps _ done => simp [done, hs] at ht
  · cases commandStep_of_step e with
    | reset isReset => exact .inl isReset
    | accepts v write _ idle busy => exact .inr ⟨v, .inr ⟨write, idle, busy⟩⟩
    | completes _ _ _ done => simp [done] at ht
    | clears v write _ done => exact .inr ⟨v, .inl ⟨write, by simpa [done, hs] using ht⟩⟩
    | keeps _ done => simp [done, hs] at ht
  · obtain ⟨-, -, -, hd, -⟩ := registersReset_of_nextIsReset h e
    exact hd
  · rintro hr v ⟨rest, hi⟩ hv
    rw [step_write_status hi hr] at e
    cases e
    simp [hv]

/-- Settles O50, by what each kind of step does to BUSY and DONE. -/
theorem busyLastsFromAcceptanceToCompletion : Obligations.BusyLastsFromAcceptanceToCompletion := by
  intro s t e
  refine ⟨fun hs ht => ?_, fun hs ht => ?_, fun snap snap' hs ht => ?_⟩
  · cases commandStep_of_step e with
    | reset _ registers =>
      obtain ⟨-, -, hp, -⟩ := registers
      simp [isBusy_eq_false.mpr hp] at ht
    | accepts v write released => exact ⟨released, v, write⟩
    | completes _ busy => simp [hs] at busy
    | clears _ _ phase | keeps phase => simp [isBusy_congr phase, hs] at ht
  · cases commandStep_of_step e with
    | reset isReset => exact .inl isReset
    | accepts _ _ _ idle => simp [hs] at idle
    | completes _ _ _ done result => exact .inr ⟨done, result⟩
    | clears _ _ phase | keeps phase => simp [isBusy_congr phase, hs] at ht
  · have hbusy : isBusy s = true := isBusy_iff.mpr ⟨snap, hs⟩
    have hbusy' : isBusy t = true := isBusy_iff.mpr ⟨snap', ht⟩
    cases commandStep_of_step e with
    | reset _ registers =>
      obtain ⟨-, -, hp, -⟩ := registers
      simp [isBusy_eq_false.mpr hp] at hbusy'
    | accepts _ _ _ idle => simp [hbusy] at idle
    | completes _ _ idle => simp [hbusy'] at idle
    | clears _ _ phase | keeps phase =>
      rw [phase, hs] at ht
      cases ht
      rfl

/-! ## The key file (10 R51) -/

/-- Settles O51: of the writes only those of a KEY register reach the key file. -/
theorem keyFileHasThreeWriters : Obligations.KeyFileHasThreeWriters := by
  intro s t e hk
  cases step_cases e with
  | reset isReset _ => exact .inl isReset
  | write off v rest next released accepted after =>
    subst after
    obtain ⟨i, hi⟩ : ∃ i, targetOf s.bufSize off = .key i := by
      by_contra h
      exact hk (writeTarget_key_of_ne (not_exists.mp h) v _)
    have ho := aligned_of_not_refused accepted
    have hoff : off.toNat = 0x40 + 4 * i.val := offset_of_targetOf ho hi (by simp) (by simp)
    have hidle := idle_of_not_refused accepted (by rw [hi]; rfl)
    exact .inr (.inl ⟨off, v, ⟨rest, next⟩, ho, released, hidle, by omega, by omega⟩)
  | completes snap code n buf ops rest busy _ operands _ _ after =>
    subst after
    rcases operands with h | h
    · exact absurd (congrArg OperandRegs.key h) hk
    · exact .inr (.inr ⟨snap, busy, h, rfl⟩)
  | refused _ _ _ _ _ _ _ after
  | waits _ _ _ _ _ after
  | quiet _ _ _ _ _ after =>
    subst after
    exact absurd rfl hk

end Sys2Proof.Machine
end

section
/-!
The access rules of the host port (spec 20 R73 to R78): what is refused, what is let through in either phase, and what
the aperture answers outside the registers.
-/

namespace Sys2Proof.Machine

/-! ## Refused accesses (20 R76, R78) -/

/-- The step of a read that is refused. -/
theorem step_read_refused {s : State} {off : Offset} {size : AccessSize} {rest : List Input}
    (hi : s.inputs = .hostRead off size :: rest) (hr : s.rstHeld = false)
    (hx : RefusedAccess s off size) :
    step s = .next { s with inputs := rest, accerr := true, rdata := some 0 } := by
  rw [step_cons hi]
  rcases hostRead_cases off size { s with inputs := rest } with ⟨h, -⟩ | ⟨-, -, e⟩ | ⟨-, h, -⟩
  · exact not_held hr h
  · exact congrArg _ e
  · exact absurd hx h

/-- The step of a write that is refused. -/
theorem step_write_refused {s : State} {off : Offset} {size : AccessSize} {v : Word}
    {rest : List Input} (hi : s.inputs = .hostWrite off size v :: rest) (hr : s.rstHeld = false)
    (hx : RefusedAccess s off size) :
    step s = .next { s with inputs := rest, accerr := true, rdata := none } := by
  rw [step_cons hi]
  rcases hostWrite_cases off size v { s with inputs := rest } with ⟨h, -⟩ | ⟨-, -, e⟩ | ⟨-, h, -⟩
  · exact not_held hr h
  · exact congrArg _ e
  · exact absurd hx h

/-- An access that is let through is 32 bits wide (20 R75). -/
theorem size_of_not_refused {s : State} {off : Offset} {size : AccessSize}
    (h : ¬RefusedAccess s off size) : size = .four := by
  by_contra hs
  exact h (.inl hs)

/-- Settles O14: such an access is refused without a look at its target or at the phase. -/
theorem illegalAccessIsRefused : Obligations.IllegalAccessIsRefused := by
  intro s off size v rest hr hill
  have hx : RefusedAccess s off size := hill.imp_right .inl
  exact ⟨fun hi => step_read_refused hi hr hx, fun hi => step_write_refused hi hr hx⟩

/-- Settles O15. -/
theorem busyLockedAccessIsRefused : Obligations.BusyLockedAccessIsRefused := by
  intro s snap off v rest hr hp _ hl
  have hx : RefusedAccess s off .four := .inr (.inr ⟨isBusy_iff.mpr ⟨snap, hp⟩, hl⟩)
  exact ⟨fun hi => step_read_refused hi hr hx, fun hi => step_write_refused hi hr hx⟩

/-- Settles O26: a read is refused, or it is a 32-bit read that is let through. -/
theorem readsChangeNothing : Obligations.ReadsChangeNothing := by
  intro s off size rest hr hi
  refine ⟨fun ha => ?_, fun hx => step_read_refused hi hr hx⟩
  obtain rfl := size_of_not_refused ha
  exact ⟨_, step_read_open hi hr ha⟩

/-! ## Busy-open targets (20 R78) -/

theorem not_refused_of_not_locked {s : State} {off : Offset} (ho : off.toNat % 4 = 0)
    (hl : ¬LockedOffset s.bufSize off.toNat) : ¬RefusedAccess s off .four := by
  rintro (h | h | ⟨-, h⟩)
  · exact h rfl
  · exact h ho
  · exact hl h

theorem targetOf_eq_status_iff {b : Nat} {off : Offset} (h : off.toNat % 4 = 0) :
    targetOf b off = .status ↔ off.toNat = 0x10 := by
  constructor
  · intro ht
    rw [eq_status_of_targetOf h ht]
    rfl
  · intro ho
    obtain rfl : off = 0x010 := BitVec.eq_of_toNat_eq ho
    exact targetOf_status b

/-- The phase shows in STATUS as bit 0 alone (10 R37). -/
theorem statusWord_busy (s : State) (snap : Snapshot) :
    statusWord { s with phase := .busy snap } = statusWord s ||| 1 := by
  have one : ∀ i < 32, (1 : Word).getLsbD i = decide (i = 0) := by decide
  apply BitVec.eq_of_getLsbD_eq
  intro i hi
  rw [BitVec.getLsbD_or, getLsbD_statusWord, getLsbD_statusWord, one i hi]
  match i with
  | 0 => simp [isBusy]
  | 1 | 2 | 3 | _ + 4 => simp [irq]

/-- No target but STATUS reads otherwise while BUSY = 1. -/
theorem readTarget_busy (s : State) (snap : Snapshot) (t : Target) :
    readTarget { s with phase := .busy snap } t =
      if t = .status then readTarget s t ||| 1 else readTarget s t := by
  cases t with
  | status => exact statusWord_busy s snap
  | _ => rfl

/-- No write but that of CMD reads or changes the phase. -/
theorem writeTarget_phase_of_ne {t : Target} (h : t ≠ .cmd) (v : Word) (s : State) (ph : Phase) :
    writeTarget v { s with phase := ph } t = { writeTarget v s t with phase := ph } := by
  cases t with
  | cmd => exact absurd rfl h
  | _ => rfl

/-- Settles O16: the access is let through in both phases, and its target sees the phase only in STATUS. -/
theorem busyOpenAccessIgnoresThePhase : Obligations.BusyOpenAccessIgnoresThePhase := by
  intro s snap off v rest hr hp ho hl
  have hidle : ¬RefusedAccess s off .four := not_refused_of_not_locked ho hl
  have hbusy : ¬RefusedAccess { s with phase := .busy snap } off .four := not_refused_of_not_locked ho hl
  refine ⟨fun hi => ?_, fun hi => ?_⟩
  · refine ⟨_, _, _, step_read_open hi hr hidle, step_read_open hi hr hbusy, rfl, ?_⟩
    simp only [readTarget_busy, targetOf_eq_status_iff ho]
  · have hcmd : targetOf s.bufSize off ≠ .cmd := fun e =>
      hl ((busyLocked_targetOf ho).mp (by rw [e]; rfl))
    have hphase := writeTarget_phase_of_ne hcmd v { s with inputs := rest, rdata := none }
    refine ⟨_, step_write_open hi hr hidle, ?_, ?_⟩
    · exact (congrArg State.phase (hphase s.phase)).trans hp
    · rw [step_write_open (s := { s with phase := .busy snap }) hi hr hbusy]
      exact congrArg _ (hphase (.busy snap))

/-! ## Reserved and unmapped offsets (10 R53, 20 R74) -/

/-- Outside the registers and the window there is nothing. -/
theorem targetOf_hole {b : Nat} {off : Offset}
    (h : off.toNat = 0x38 ∨ off.toNat = 0x3C ∨ (0x90 ≤ off.toNat ∧ off.toNat ≤ 0x7FFF) ∨
      0x8000 + b ≤ off.toNat) :
    targetOf b off = .reserved ∨ targetOf b off = .unmapped := by
  by_cases hlow : off.toNat < 0x100
  · left
    rw [targetOf_register hlow]
    exact registerAt_reserved _ hlow (by omega)
  · right
    exact targetOf_unmapped (by omega) (by omega)

/-- Settles O17: the target is `reserved` or `unmapped`, and neither is busy-locked. -/
theorem unmappedOffsetsReadZero : Obligations.UnmappedOffsetsReadZero := by
  intro s off v rest hr ho hhole
  have hopen : ¬RefusedAccess s off .four :=
    not_refused_of_not_locked ho (by simp only [LockedOffset]; omega)
  refine ⟨fun hi => ?_, fun hi => ?_⟩
  · rw [step_read_open hi hr hopen]
    rcases targetOf_hole hhole with e | e <;> rw [e, readTarget]
  · rw [step_write_open hi hr hopen]
    rcases targetOf_hole hhole with e | e <;> rw [e, writeTarget]

/-! ## The buffer window (20 R73) -/

/-- Lane `j` of the word a read of the window answers. -/
theorem lane_readTarget_buffer (s : State) (k : Nat) {j : Nat} (hj : j < 4) :
    lane (readTarget s (.buffer k)) j = Memory.read s.buf (k + j) := by
  obtain ⟨h0, h1, h2, h3⟩ := lane_le32 (Memory.read s.buf k) (Memory.read s.buf (k + 1))
    (Memory.read s.buf (k + 2)) (Memory.read s.buf (k + 3))
  match j, hj with
  | 0, _ => exact h0
  | 1, _ => exact h1
  | 2, _ => exact h2
  | 3, _ => exact h3

/-- The bytes a write of a word stores. -/
theorem read_writeBytes_lanes_same (m : Memory) (k : Nat) (v : Word) {j : Nat} (hj : j < 4) :
    Memory.read (Memory.writeBytes m k (lanes 4 v)) (k + j) = lane v j := by
  rw [Memory.read_writeBytes, length_lanes, if_pos (by omega), Nat.add_sub_cancel_left,
    getD_lanes 4 v j hj]

/-- The bytes a write of a word leaves. -/
theorem read_writeBytes_lanes_of_ne (m : Memory) (k : Nat) (v : Word) {a : Nat}
    (ha : ¬(k ≤ a ∧ a < k + 4)) :
    Memory.read (Memory.writeBytes m k (lanes 4 v)) a = Memory.read m a := by
  rw [Memory.read_writeBytes, length_lanes, if_neg ha]

/-- Settles O18: the offset leads to `.buffer k`, open while IDLE and locked while BUSY. -/
theorem bufferWindowHoldsLanes : Obligations.BufferWindowHoldsLanes := by
  intro s off k v rest hr hoff hk hfits
  have ho : off.toNat % 4 = 0 := by omega
  have ht : targetOf s.bufSize off = .buffer k := targetOf_buffer hoff hfits
  have hlocked : LockedOffset s.bufSize off.toNat := .inr (.inr (by omega))
  have hopen : s.phase = .idle → ¬RefusedAccess s off .four := fun hp => not_refused_of_idle hp ho
  have hrefused : isBusy s = true → RefusedAccess s off .four := fun hb => .inr (.inr ⟨hb, hlocked⟩)
  refine ⟨fun hp hi => ?_, fun hp hi => ?_, fun hb hi => step_read_refused hi hr (hrefused hb),
    fun hb hi => step_write_refused hi hr (hrefused hb)⟩
  · refine ⟨_, step_read_open hi hr (hopen hp), fun j hj => ?_⟩
    rw [ht]
    exact lane_readTarget_buffer s k hj
  · refine ⟨_, step_write_open hi hr (hopen hp), ?_⟩
    rw [ht]
    exact ⟨rfl, fun j hj => read_writeBytes_lanes_same _ k v hj,
      fun a ha => read_writeBytes_lanes_of_ne _ k v ha⟩

end Sys2Proof.Machine
end

section
/-!
Decoding and encoding of command words (spec 30 R100 to R106), and the step that runs a decoded command (40 R123, R131).
-/

namespace Sys2Proof.Machine

/-! ## The fields as numbers (30 R100) -/

theorem toNat_opcField (v : Word) : (opcField v).toNat = v.toNat % 16 := by simp [opcField]

theorem toNat_rsvdField (v : Word) : (rsvdField v).toNat = v.toNat / 16 := by
  rw [rsvdField, BitVec.extractLsb'_toNat, Nat.shiftRight_eq_div_pow]
  omega

/-- RSVD is 0 exactly in the sixteen words that are their own OPC. -/
theorem rsvdField_eq_zero_iff {v : Word} : rsvdField v = 0 ↔ v.toNat < 16 := by
  rw [BitVec.toNat_eq, toNat_rsvdField]
  exact Nat.div_eq_zero_iff_lt (by decide)

theorem opcField_eq_iff {v : Word} (h : v.toNat < 16) {c : BitVec 4} :
    opcField v = c ↔ v.toNat = c.toNat := by
  rw [BitVec.toNat_eq, toNat_opcField, Nat.mod_eq_of_lt h]

/-! ## decode (30 R102) -/

theorem decode_reservedBits {v : Word} (h : 16 ≤ v.toNat) : decode v = .illegal .reservedBits := by
  have hrsvd : rsvdField v ≠ 0 := by
    rw [Ne, rsvdField_eq_zero_iff]
    omega
  rw [decode, if_pos hrsvd]

theorem decode_reservedOpcode {v : Word} (h4 : 4 ≤ v.toNat) (h16 : v.toNat < 16) :
    decode v = .illegal .reservedOpcode := by
  have hopc {c : BitVec 4} (hc : c.toNat < 4) : opcField v ≠ c := by
    rw [Ne, opcField_eq_iff h16]
    omega
  rw [decode, if_neg (not_not.mpr (rsvdField_eq_zero_iff.mpr h16)), if_neg (hopc (by decide)),
    if_neg (hopc (by decide)), if_neg (hopc (by decide)), if_neg (hopc (by decide))]

@[simp] theorem decode_encode (i : Instr) : decode (encode i) = .command i := by
  cases i <;> decide

/-- The words below 4 are the words of the commands (30 R101). -/
theorem exists_encode_of_lt {v : Word} (h : v.toNat < 4) : ∃ i, v = encode i := by
  obtain h0 | h1 | h2 | h3 : v.toNat = 0 ∨ v.toNat = 1 ∨ v.toNat = 2 ∨ v.toNat = 3 := by omega
  · exact ⟨.nop, BitVec.eq_of_toNat_eq h0⟩
  · exact ⟨.encrypt, BitVec.eq_of_toNat_eq h1⟩
  · exact ⟨.decrypt, BitVec.eq_of_toNat_eq h2⟩
  · exact ⟨.zeroize, BitVec.eq_of_toNat_eq h3⟩

/-- The inversion of `decode`: no word falls outside the opcode map of R101. -/
theorem decode_cases (v : Word) :
    (∃ i, v = encode i) ∨ decode v = .illegal .reservedOpcode ∨ decode v = .illegal .reservedBits := by
  rcases Nat.lt_or_ge v.toNat 4 with h4 | h4
  · exact .inl (exists_encode_of_lt h4)
  rcases Nat.lt_or_ge v.toNat 16 with h16 | h16
  · exact .inr (.inl (decode_reservedOpcode h4 h16))
  · exact .inr (.inr (decode_reservedBits h16))

theorem decode_eq_command_iff {v : Word} {i : Instr} : decode v = .command i ↔ v = encode i := by
  refine ⟨fun h => ?_, fun h => h ▸ decode_encode i⟩
  rcases decode_cases v with ⟨j, rfl⟩ | hill | hill
  · rw [decode_encode, Decoded.command.injEq] at h
    rw [h]
  · simp [hill] at h
  · simp [hill] at h

theorem decode_of_toNat_eq {v : Word} {i : Instr} (h : v.toNat = (encode i).toNat) :
    decode v = .command i := decode_eq_command_iff.mpr (BitVec.eq_of_toNat_eq h)

/-! ## The words of the table (30 R101, R106) -/

theorem decodeTableWord_eq_some_iff {n w : Nat} {i : Instr} (h : w < 2 ^ 32) :
    decodeTableWord n w = some i ↔ decode (BitVec.ofNat 32 w) = .command i := by
  rw [decodeTableWord, if_pos h]
  cases decode (BitVec.ofNat 32 w) <;> simp

theorem ofNat_eq_encode_iff {w : Nat} {i : Instr} (h : w < 2 ^ 32) :
    BitVec.ofNat 32 w = encode i ↔ w = (encode i).toNat := by
  rw [BitVec.toNat_eq, BitVec.toNat_ofNat, Nat.mod_eq_of_lt h]

theorem commandWordWf_encode : ∀ i : Instr, commandWordWf (encode i) = true
  | .nop => Laws.EncodesLegally.nop
  | .encrypt => Laws.EncodesLegally.encrypt
  | .decrypt => Laws.EncodesLegally.decrypt
  | .zeroize => Laws.EncodesLegally.zeroize

/-- Settles O2: `decode_eq_command_iff`, carried to the table's numbers. -/
theorem decodeAndEncodeAgree : Obligations.DecodeAndEncodeAgree := fun i _ =>
  ⟨fun _ => decode_eq_command_iff, commandWordWf_encode i, fun _ _ hw =>
    (decodeTableWord_eq_some_iff hw).trans (decode_eq_command_iff.trans (ofNat_eq_encode_iff hw))⟩

/-- Settles O1: the words 0 to 3 are the commands' words; above them the fields decide. -/
theorem decodeFollowsTheOpcodeMap : Obligations.DecodeFollowsTheOpcodeMap := fun v =>
  ⟨decode_of_toNat_eq (i := .nop), decode_of_toNat_eq (i := .encrypt), decode_of_toNat_eq (i := .decrypt),
    decode_of_toNat_eq (i := .zeroize), decode_reservedOpcode, decode_reservedBits,
    fun s => ⟨_, accept_phase v s, rfl⟩⟩

/-- Settles O3: each word is a command's word or lies in one of the two ILLEGAL ranges. -/
theorem wordsOfTheVectorsDecode : Obligations.WordsOfTheVectorsDecode :=
  ⟨decode_encode .nop, decode_encode .encrypt, decode_encode .decrypt, decode_encode .zeroize,
    decode_reservedOpcode (by decide) (by decide), decode_reservedOpcode (by decide) (by decide),
    decode_reservedBits (by decide), decode_reservedBits (by decide),
    decode_reservedBits (by decide), decode_reservedBits (by decide)⟩

/-! ## The step of a decoded command (40 R123, R131) -/

/-- An entropy answer that is asked for gives the waiting command its turn. -/
theorem entropyAnswer_taken {s : State} {snap : Snapshot} (d : EntropyWord) (h : s.phase = .busy snap)
    (hr : s.entReq = true) : entropyAnswer d s = sequencerTurn { s with entData := some d } := by
  rw [entropyAnswer, isBusy_iff.mpr ⟨snap, h⟩, hr]
  rfl

theorem step_sequencer_command {s : State} {snap : Snapshot} {i : Instr} {rest : List Input}
    (hi : s.inputs = .sequencer :: rest) (hbusy : s.phase = .busy snap)
    (hdec : decode snap.cmd = .command i) : step s = exec i { s with inputs := rest } :=
  calc step s = sequencerTurn { s with inputs := rest } := step_cons hi
    _ = exec i { s with inputs := rest } := sequencerTurn_command hbusy hdec

theorem step_entropy_command {s : State} {snap : Snapshot} {i : Instr} {d : EntropyWord}
    {rest : List Input} (hi : s.inputs = .entropy d :: rest) (hbusy : s.phase = .busy snap)
    (hr : s.entReq = true) (hdec : decode snap.cmd = .command i) :
    step s = exec i { s with inputs := rest, entData := some d } :=
  calc step s = entropyAnswer d { s with inputs := rest } := step_cons hi
    _ = sequencerTurn { s with inputs := rest, entData := some d } := entropyAnswer_taken d hbusy hr
    _ = exec i { s with inputs := rest, entData := some d } := sequencerTurn_command hbusy hdec

/-- A command placed in the snapshot is run by the next step (log 2). -/
theorem step_withFetchWord_encode (s : State) (n : Nat) (i : Instr) :
    step (s.withFetchWord n (encode i).toNat) = exec i { accept (encode i) s with rstHeld := false } := by
  have hplace : s.withFetchWord n (encode i).toNat = placeCommand (encode i) s := by
    rw [State.withFetchWord, BitVec.ofNat_toNat, BitVec.setWidth_eq]
  rw [hplace]
  exact step_sequencer_command (placeCommand_inputs _ _) (placeCommand_phase _ _) (decode_encode i)

/-- Settles O4: the scheduled turn, the turn of an empty list, the awaited answer and the placed command are each a
turn of the sequencer, which runs the decoded command. -/
theorem stepRunsTheDecodedCommand : Obligations.StepRunsTheDecodedCommand :=
  fun _ _ i hbusy hdec =>
    ⟨fun _ hi => step_sequencer_command hi hbusy hdec,
      fun hi => (step_nil hi).trans (sequencerTurn_command hbusy hdec),
      fun _ _ hi hr => step_entropy_command hi hbusy hr hdec,
      fun s₀ n => step_withFetchWord_encode s₀ n i⟩

end Sys2Proof.Machine
end

section
/-!
The composite construction on byte strings (spec 40 R133, R134, R141, R144): CBC decryption undoes CBC encryption, the
comparator is equality of tags, and from these what DECRYPT accepts.
-/

namespace Sys2Proof.Machine

/-! ## CBC and padding undone (41 R186, R191, R194) -/

theorem invCipher_cipher (w : List Column) (s : AesState) : invCipher w (cipher w s) = s := by
  simp [invCipher, cipher, invCipherRounds_cipherRounds]

theorem decryptBlock_encryptBlock (w : List Column) {b : Bytes} (h : b.length = 16) :
    decryptBlock w (encryptBlock w b) = b := by
  rw [decryptBlock, encryptBlock, loadState_storeState, invCipher_cipher, storeState_loadState h]

/-- Decryption of a chain gives back the blocks it was made from. -/
theorem cbcDecBlocks_cbcChain (w : List Column) {c : Bytes} {xs : List Bytes} (hc : c.length = 16)
    (hx : ∀ x ∈ xs, x.length = 16) : cbcDecBlocks w c (cbcChain w c xs) = xs.flatten := by
  induction xs generalizing c with
  | nil => rfl
  | cons x xs ih =>
    obtain ⟨hx16, hxs⟩ := List.forall_mem_cons.mp hx
    have hxor : (xorBytes x c).length = 16 := by simp [hx16, hc]
    rw [cbcChain, cbcDecBlocks, decryptBlock_encryptBlock w hxor,
      xorBytes_xorBytes_self (hx16.trans hc.symm), ih (length_encryptBlock w _) hxs, List.flatten_cons]

theorem cbcDec_cbcEnc (k : Bytes) {iv x : Bytes} (hi : iv.length = 16) (hx : x.length % 16 = 0) :
    cbcDec k iv (cbcEnc k iv x) = x := by
  have hlen : x.length = 16 * (x.length / 16) := by omega
  rw [cbcDec, cbcEnc, aesBlocks_cbcEncBlocks, cbcDecBlocks_cbcChain _ hi]
  · exact flatten_blocksOf hlen
  · exact fun y hy => length_of_mem_blocksOf (size := 16) hlen.ge hy

theorem pkcs7Unpad_pkcs7Pad (pt : Bytes) : pkcs7Unpad (pkcs7Pad pt) = some pt :=
  pkcs7Unpad_append_rep (padLength_pos _) (padLength_le _)

/-- What ENCRYPT does to the plaintext, DECRYPT undoes under the same key and IV. -/
theorem pkcs7Unpad_cbcDec_cbcEnc (k : Bytes) {iv : Bytes} (pt : Bytes) (hi : iv.length = 16) :
    pkcs7Unpad (cbcDec k iv (cbcEnc k iv (pkcs7Pad pt))) = some pt := by
  rw [cbcDec_cbcEnc k hi (by rw [length_pkcs7Pad]; omega), pkcs7Unpad_pkcs7Pad]

/-! ## The comparator (43 R244) -/

/-- On tags of 32 bytes the comparator is equality. -/
theorem ctEq_iff_eq {t t2 : Bytes} (h : t.length = 32) (h2 : t2.length = 32) :
    ctEq t t2 = true ↔ t = t2 := by
  rw [ctEq, beq_iff_eq, Config.tagBytes]
  refine (tagDifference_eq_zero t t2 32).trans ⟨fun hget => ?_, fun e _ _ => e ▸ rfl⟩
  apply List.ext_getElem (h.trans h2.symm)
  intro i hi hi2
  have := hget i (by omega)
  rwa [List.getD_eq_getElem _ _ hi, List.getD_eq_getElem _ _ hi2] at this

/-! ## What DECRYPT accepts (40 R134) -/

theorem length_blobTag {c : Bytes} (h : 64 ≤ c.length) : (blobTag c).length = 32 := by
  simp only [blobTag, length_slice, Config.tagBytes]
  omega

/-- A blob decrypts exactly when its structure, its tag and its padding are good (R134, R138). -/
theorem aeadDecrypt_eq_some_iff {k c a pt : Bytes} : aeadDecrypt k c a = some pt ↔
    64 ≤ c.length ∧ (c.length - 48) % 16 = 0 ∧
      blobTag c = tag (macKeyOf k) a (blobIv c) (blobBody c) ∧
      pkcs7Unpad (cbcDec (encKeyOf k) (blobIv c) (blobBody c)) = some pt := by
  unfold aeadDecrypt
  cases hs : badStructure c.length with
  | true =>
    have hbad : ¬(64 ≤ c.length ∧ (c.length - 48) % 16 = 0) := fun h => by
      rw [badStructure_eq_false.mpr h] at hs
      cases hs
    simp only [if_true, reduceCtorEq, false_iff]
    exact fun ⟨h64, h16, _⟩ => hbad ⟨h64, h16⟩
  | false =>
    obtain ⟨h64, h16⟩ := badStructure_eq_false.mp hs
    rw [← ctEq_iff_eq (length_blobTag h64) (length_tag _ _ _ _)]
    cases ctEq (blobTag c) (tag (macKeyOf k) a (blobIv c) (blobBody c)) <;> simp [h64, h16]

/-- The blob ENCRYPT makes decrypts to its plaintext (R141). -/
theorem aeadDecrypt_aeadEncrypt (k : Bytes) {iv : Bytes} (pt a : Bytes) (hi : iv.length = 16) :
    aeadDecrypt k (aeadEncrypt k iv pt a) a = some pt := by
  have hlen := length_aeadEncrypt k a pt hi
  obtain ⟨hiv, hbody, htag⟩ := blob_parts (e := cbcEnc (encKeyOf k) iv (pkcs7Pad pt)) hi
    (length_tag (macKeyOf k) a iv (cbcEnc (encKeyOf k) iv (pkcs7Pad pt)))
  rw [blobLength] at hlen
  refine aeadDecrypt_eq_some_iff.mpr ⟨by omega, by omega, ?_, ?_⟩
  · rw [aeadEncrypt, hiv, hbody, htag]
  · rw [aeadEncrypt, hiv, hbody, pkcs7Unpad_cbcDec_cbcEnc _ _ hi]

/-- Settles O44. -/
theorem decryptInvertsEncrypt : Obligations.DecryptInvertsEncrypt :=
  fun k _ pt a hi => aeadDecrypt_aeadEncrypt k pt a hi

/-! ## The part of a blob under its tag (40 R144) -/

/-- A slice is determined by any first part of the byte string that reaches to its end. -/
theorem slice_congr_of_start {c c' : Bytes} {i j n : Nat} (hj : j ≤ n)
    (h : slice c' 0 n = slice c 0 n) : slice c' i j = slice c i j := by
  simp only [slice, List.drop_zero, Nat.sub_zero] at h ⊢
  have htake : c'.take j = c.take j := by
    rw [← Nat.min_eq_left hj, ← List.take_take, ← List.take_take, h]
  rw [← List.drop_take, ← List.drop_take, htake]

/-- Two slices that meet make up the byte string. -/
theorem slice_append_slice (c : Bytes) (n : Nat) : slice c 0 n ++ slice c n c.length = c := by
  have hrest : slice c n c.length = c.drop n := List.take_of_length_le (by simp)
  rw [hrest]
  exact List.take_append_drop n c

/-- Settles O47: with the IV and the body kept only one tag is right. -/
theorem changedTagIsRejected : Obligations.ChangedTagIsRejected := by
  intro k c c' a pt hc hlen hstart hne
  obtain ⟨h64, -, htag, -⟩ := aeadDecrypt_eq_some_iff.mp hc
  have hiv : blobIv c' = blobIv c :=
    slice_congr_of_start (by simp only [Config.ivBytes]; omega) hstart
  have hbody : blobBody c' = blobBody c := by
    rw [blobBody, hlen]
    exact slice_congr_of_start le_rfl hstart
  refine Option.eq_none_iff_forall_ne_some.mpr fun pt' hc' => hne ?_
  obtain ⟨-, -, htag', -⟩ := aeadDecrypt_eq_some_iff.mp hc'
  have hsame : blobTag c' = blobTag c := by rw [htag', htag, hiv, hbody]
  calc c' = slice c' 0 (c'.length - 32) ++ blobTag c' := (slice_append_slice c' _).symm
    _ = slice c 0 (c.length - 32) ++ blobTag c := by rw [hsame, hlen, hstart]
    _ = c := slice_append_slice c _

end Sys2Proof.Machine
end

section
/-!
The ends of a command (spec 40 R121 to R136): for each command the state each of its ends leaves, and what a completion
keeps of the buffer.
-/

namespace Sys2Proof.Machine

/-! ## The ends of ENCRYPT and DECRYPT -/

/-- The four ends of an ENCRYPT (R133), as what its state says and the state it leaves. -/
inductive EncryptEnd (s : State) (snap : Snapshot) : State → Prop
  /-- KEYLEN is wrong (R129). -/
  | badKey (key : snap.ops.keylen.toNat ≠ 64) : EncryptEnd s snap (finish .invalidCryptoKey 0 s)
  /-- A region is refused (R127). -/
  | badRegion (key : snap.ops.keylen.toNat = 64)
      (regions : ¬RegionsAccepted s.bufSize (blobLength snap.ops.inlen.toNat) snap.ops) :
      EncryptEnd s snap (finish .badRegion 0 s)
  /-- It waits for the entropy source (R131). -/
  | waits (key : snap.ops.keylen.toNat = 64)
      (regions : RegionsAccepted s.bufSize (blobLength snap.ops.inlen.toNat) snap.ops)
      (noIv : obtainIv snap s = none) : EncryptEnd s snap (requestEntropy s)
  /-- It succeeds. -/
  | ok (iv : Bytes) (key : snap.ops.keylen.toNat = 64)
      (regions : RegionsAccepted s.bufSize (blobLength snap.ops.inlen.toNat) snap.ops)
      (hasIv : obtainIv snap s = some iv) : EncryptEnd s snap (finishEncrypt iv snap s)

/-- The four ends of a DECRYPT (R134), in the same form. -/
inductive DecryptEnd (s : State) (snap : Snapshot) : State → Prop
  /-- KEYLEN is wrong (R129). -/
  | badKey (key : snap.ops.keylen.toNat ≠ 64) : DecryptEnd s snap (finish .invalidCryptoKey 0 s)
  /-- A region is refused (R128). -/
  | badRegion (key : snap.ops.keylen.toNat = 64)
      (regions : ¬RegionsAccepted s.bufSize (reservedLength snap.ops.inlen.toNat) snap.ops) :
      DecryptEnd s snap (finish .badRegion 0 s)
  /-- The blob fails an integrity check (R139). -/
  | badBlob (key : snap.ops.keylen.toNat = 64)
      (regions : RegionsAccepted s.bufSize (reservedLength snap.ops.inlen.toNat) snap.ops)
      (fails : aeadDecrypt (compositeKey snap) (inputOperand snap s) (aadOperand snap s) = none) :
      DecryptEnd s snap (raiseFailure .invalidCiphertext snap s)
  /-- It succeeds. -/
  | ok (pt : Bytes) (key : snap.ops.keylen.toNat = 64)
      (regions : RegionsAccepted s.bufSize (reservedLength snap.ops.inlen.toNat) snap.ops)
      (opens : aeadDecrypt (compositeKey snap) (inputOperand snap s) (aadOperand snap s) = some pt) :
      DecryptEnd s snap (finishDecrypt pt snap s)

section
variable {s t : State} {snap : Snapshot}

theorem exec_encrypt_ends (h : s.phase = .busy snap) :
    ∃ t, exec .encrypt s = .next t ∧ EncryptEnd s snap t := by
  rcases execEncrypt_cases h with ⟨hk, e⟩ | ⟨hk, hr, e⟩ | ⟨hk, hr, hi, e⟩ | ⟨iv, hk, hr, hi, e⟩
  · exact ⟨_, e, .badKey hk⟩
  · exact ⟨_, e, .badRegion hk hr⟩
  · exact ⟨_, e, .waits hk hr hi⟩
  · exact ⟨_, e, .ok iv hk hr hi⟩

theorem exec_decrypt_ends (h : s.phase = .busy snap) :
    ∃ t, exec .decrypt s = .next t ∧ DecryptEnd s snap t := by
  rcases execDecrypt_cases h with ⟨hk, e⟩ | ⟨hk, hr, e⟩ | ⟨hk, hr, hd, e⟩ | ⟨pt, hk, hr, hd, e⟩
  · exact ⟨_, e, .badKey hk⟩
  · exact ⟨_, e, .badRegion hk hr⟩
  · exact ⟨_, e, .badBlob hk hr hd⟩
  · exact ⟨_, e, .ok pt hk hr hd⟩

theorem encryptEnd_of_exec (h : s.phase = .busy snap) (e : exec .encrypt s = .next t) :
    EncryptEnd s snap t := by
  obtain ⟨u, hu, hend⟩ := exec_encrypt_ends h
  rw [hu] at e
  cases e
  exact hend

theorem decryptEnd_of_exec (h : s.phase = .busy snap) (e : exec .decrypt s = .next t) :
    DecryptEnd s snap t := by
  obtain ⟨u, hu, hend⟩ := exec_decrypt_ends h
  rw [hu] at e
  cases e
  exact hend

/-! ## Which end it is -/

theorem exec_of_keylen_ne {i : Instr} (h : s.phase = .busy snap) (hi : i = .encrypt ∨ i = .decrypt)
    (hk : snap.ops.keylen.toNat ≠ 64) : exec i s = .next (finish .invalidCryptoKey 0 s) := by
  rcases hi with rfl | rfl
  · obtain ⟨t, e, hend⟩ := exec_encrypt_ends h
    cases hend with
    | badKey => exact e
    | badRegion key | waits key | ok _ key => exact absurd key hk
  · obtain ⟨t, e, hend⟩ := exec_decrypt_ends h
    cases hend with
    | badKey => exact e
    | badRegion key | badBlob key | ok _ key => exact absurd key hk

/-- An ENCRYPT that has its IV finishes. -/
theorem exec_encrypt_ok {iv : Bytes} (h : s.phase = .busy snap) (hk : snap.ops.keylen.toNat = 64)
    (hr : RegionsAccepted s.bufSize (blobLength snap.ops.inlen.toNat) snap.ops)
    (hi : obtainIv snap s = some iv) : exec .encrypt s = .next (finishEncrypt iv snap s) := by
  obtain ⟨t, e, hend⟩ := exec_encrypt_ends h
  cases hend with
  | badKey key => exact absurd hk key
  | badRegion _ regions => exact absurd hr regions
  | waits _ _ noIv => simp [hi] at noIv
  | ok _ _ _ hasIv =>
    obtain rfl := Option.some.inj (hi.symm.trans hasIv)
    exact e

/-- An ENCRYPT without an IV asks for one. -/
theorem exec_encrypt_waits (h : s.phase = .busy snap) (hk : snap.ops.keylen.toNat = 64)
    (hr : RegionsAccepted s.bufSize (blobLength snap.ops.inlen.toNat) snap.ops)
    (hi : obtainIv snap s = none) : exec .encrypt s = .next (requestEntropy s) := by
  obtain ⟨t, e, hend⟩ := exec_encrypt_ends h
  cases hend with
  | badKey key => exact absurd hk key
  | badRegion _ regions => exact absurd hr regions
  | waits => exact e
  | ok _ _ _ hasIv => simp [hi] at hasIv

theorem exec_decrypt_ok {pt : Bytes} (h : s.phase = .busy snap) (hk : snap.ops.keylen.toNat = 64)
    (hr : RegionsAccepted s.bufSize (reservedLength snap.ops.inlen.toNat) snap.ops)
    (hd : aeadDecrypt (compositeKey snap) (inputOperand snap s) (aadOperand snap s) = some pt) :
    exec .decrypt s = .next (finishDecrypt pt snap s) := by
  obtain ⟨t, e, hend⟩ := exec_decrypt_ends h
  cases hend with
  | badKey key => exact absurd hk key
  | badRegion _ regions => exact absurd hr regions
  | badBlob _ _ fails => simp [hd] at fails
  | ok _ _ _ opens =>
    obtain rfl := Option.some.inj (hd.symm.trans opens)
    exact e

theorem exec_decrypt_fails (h : s.phase = .busy snap) (hk : snap.ops.keylen.toNat = 64)
    (hr : RegionsAccepted s.bufSize (reservedLength snap.ops.inlen.toNat) snap.ops)
    (hd : aeadDecrypt (compositeKey snap) (inputOperand snap s) (aadOperand snap s) = none) :
    exec .decrypt s = .next (raiseFailure .invalidCiphertext snap s) := by
  obtain ⟨t, e, hend⟩ := exec_decrypt_ends h
  cases hend with
  | badKey key => exact absurd hk key
  | badRegion _ regions => exact absurd hr regions
  | badBlob => exact e
  | ok _ _ _ opens => simp [hd] at opens

/-- An ENCRYPT that is over with the code OK has written its blob (R133). -/
theorem encrypt_ok_inv (h : s.phase = .busy snap) (e : exec .encrypt s = .next t)
    (hp : t.phase = .idle) (hok : t.result = .ok) :
    ∃ iv, RegionsAccepted s.bufSize (blobLength snap.ops.inlen.toNat) snap.ops ∧
      obtainIv snap s = some iv ∧ t = finishEncrypt iv snap s := by
  cases encryptEnd_of_exec h e with
  | badKey | badRegion => simp at hok
  | waits => simp [h] at hp
  | ok iv _ regions hasIv => exact ⟨iv, regions, hasIv, rfl⟩

/-- With an IV at hand an ENCRYPT with the code OK is over (R133). -/
theorem eq_finishEncrypt {iv : Bytes} (h : s.phase = .busy snap) (hiv : obtainIv snap s = some iv)
    (e : exec .encrypt s = .next t) (hok : t.result = .ok) : t = finishEncrypt iv snap s := by
  cases encryptEnd_of_exec h e with
  | badKey | badRegion => simp at hok
  | waits _ _ noIv => simp [hiv] at noIv
  | ok _ _ _ hasIv => rw [Option.some.inj (hiv.symm.trans hasIv)]

/-- A DECRYPT that ends with the code OK has written its plaintext (R134). -/
theorem decrypt_ok_inv (h : s.phase = .busy snap) (e : exec .decrypt s = .next t)
    (hok : t.result = .ok) :
    ∃ pt, aeadDecrypt (compositeKey snap) (inputOperand snap s) (aadOperand snap s) = some pt ∧
      t = finishDecrypt pt snap s := by
  cases decryptEnd_of_exec h e with
  | badKey | badRegion => simp at hok
  | badBlob => simp [raiseFailure_invalidCiphertext] at hok
  | ok pt _ _ opens => exact ⟨pt, opens, rfl⟩

/-! ## What a completion does to the buffer (R133, R134, R139) -/

theorem readBytes_finishEncrypt {iv : Bytes} (hi : iv.length = 16) :
    Memory.readBytes (finishEncrypt iv snap s).buf snap.ops.outoff.toNat
        (blobLength snap.ops.inlen.toNat) =
      aeadEncrypt (compositeKey snap) iv (inputOperand snap s) (aadOperand snap s) := by
  have hl := length_aeadEncrypt (compositeKey snap) (aadOperand snap s) (inputOperand snap s) hi
  rw [length_inputOperand] at hl
  rw [finishEncrypt_buf, ← hl, Memory.readBytes_writeBytes]

theorem read_finishEncrypt_of_outside {iv : Bytes} (hi : iv.length = 16) {a : Nat}
    (ha : ¬(snap.ops.outoff.toNat ≤ a ∧
      a < snap.ops.outoff.toNat + blobLength snap.ops.inlen.toNat)) :
    Memory.read (finishEncrypt iv snap s).buf a = Memory.read s.buf a := by
  rw [read_finishEncrypt hi, if_neg ha]

/-- The plaintext of a DECRYPT is shorter than its reserved region (R143). -/
theorem length_lt_reserved {pt : Bytes}
    (hd : aeadDecrypt (compositeKey snap) (inputOperand snap s) (aadOperand snap s) = some pt) :
    pt.length + 1 ≤ reservedLength snap.ops.inlen.toNat := by
  obtain ⟨-, -, -, hlt⟩ := length_of_aeadDecrypt hd
  rwa [length_inputOperand] at hlt

theorem readBytes_finishDecrypt {pt : Bytes}
    (hp : pt.length ≤ reservedLength snap.ops.inlen.toNat) :
    Memory.readBytes (finishDecrypt pt snap s).buf snap.ops.outoff.toNat
        (reservedLength snap.ops.inlen.toNat) =
      pt ++ zeros (reservedLength snap.ops.inlen.toNat - pt.length) := by
  refine readBytes_eq_of_getD (by simp; omega) fun i hlt => ?_
  rw [read_finishDecrypt hp, if_pos (by omega), Nat.add_sub_cancel_left]

/-- The first bytes of the reserved region are the plaintext. -/
theorem readBytes_finishDecrypt_plaintext {pt : Bytes}
    (hp : pt.length ≤ reservedLength snap.ops.inlen.toNat) :
    Memory.readBytes (finishDecrypt pt snap s).buf snap.ops.outoff.toNat pt.length = pt := by
  refine readBytes_eq_of_getD rfl fun i hlt => ?_
  rw [read_finishDecrypt hp, if_pos (by omega), Nat.add_sub_cancel_left,
    List.getD_append _ _ _ _ hlt]

theorem read_finishDecrypt_of_outside {pt : Bytes}
    (hp : pt.length ≤ reservedLength snap.ops.inlen.toNat) {a : Nat}
    (ha : ¬(snap.ops.outoff.toNat ≤ a ∧
      a < snap.ops.outoff.toNat + reservedLength snap.ops.inlen.toNat)) :
    Memory.read (finishDecrypt pt snap s).buf a = Memory.read s.buf a := by
  rw [read_finishDecrypt hp, if_neg ha]

/-- An integrity failure zero-fills the reserved region and nothing else (R124, R139). -/
theorem read_invalidCiphertext (a : Nat) :
    Memory.read (raiseFailure .invalidCiphertext snap s).buf a =
      if snap.ops.outoff.toNat ≤ a ∧
          a < snap.ops.outoff.toNat + reservedLength snap.ops.inlen.toNat then 0
      else Memory.read s.buf a := by
  rw [raiseFailure_invalidCiphertext, finish_buf, Memory.read_zeroFill, Memory.blank]

/-- A region that a buffer write stays clear of reads as before. -/
theorem readBytes_of_disjoint {m m' : Memory} {o n off len : Nat}
    (hframe : ∀ a, ¬(o ≤ a ∧ a < o + n) → Memory.read m' a = Memory.read m a)
    (hdis : n = 0 ∨ len = 0 ∨ o + n ≤ off ∨ off + len ≤ o) :
    Memory.readBytes m' off len = Memory.readBytes m off len :=
  Memory.readBytes_congr _ _ _ _ _ fun i hi => hframe _ (by omega)

end

/-! ## NOP, ZEROIZE, ILLEGAL words, acceptance -/

/-- Settles O27: an idle block refuses no aligned access. -/
theorem acceptanceTakesTheSnapshot : Obligations.AcceptanceTakesTheSnapshot := by
  intro s v rest hr hp hi
  rw [step_write_open hi hr (not_refused_of_idle hp (by decide)), targetOf_cmd]
  rfl

/-- Settles O30. -/
theorem nopCompletesOk : Obligations.NopCompletesOk := fun _ _ hp => execNop_busy hp

/-- Settles O31: the zero-fill covers the buffer, and the cleared KEYLEN is not 64. -/
theorem zeroizeClearsBufferKeyAndOperands : Obligations.ZeroizeClearsBufferKeyAndOperands := by
  intro s snap hp
  refine ⟨_, execZeroize_busy hp, rfl, fun a ha => ?_, fun a ha => ?_, key_cleared, iv_cleared,
    rfl, rfl, rfl, rfl, rfl, rfl,
    fun i hi => ⟨_, exec_accept_of_keylen hi (by simp [OperandRegs.cleared]), rfl, rfl⟩⟩
  · rw [finish_buf, Memory.read_zeroFill, if_pos (by omega), Memory.blank]
  · rw [finish_buf, Memory.read_zeroFill, if_neg (by omega)]

/-- Settles O32. -/
theorem reservedWordReportsIllegalCommand : Obligations.ReservedWordReportsIllegalCommand := by
  refine ⟨fun s snap why rest hp hd hi => ?_, decode_reservedBits (by decide)⟩
  rw [step_cons hi]
  exact sequencerTurn_illegal (s := { s with inputs := rest }) hp hd

/-- Settles O33: with KEYLEN 64 no end of either command has that code. -/
theorem wrongKeyLengthFailsFirst : Obligations.WrongKeyLengthFailsFirst := by
  intro s snap i hp hi
  refine ⟨exec_of_keylen_ne hp hi, fun hk t e ht => ?_⟩
  rcases hi with rfl | rfl
  · cases encryptEnd_of_exec hp e with
    | badKey key => exact absurd hk key
    | waits => simp [hp] at ht
    | badRegion | ok => simp
  · cases decryptEnd_of_exec hp e with
    | badKey key => exact absurd hk key
    | badBlob => simp [raiseFailure_invalidCiphertext]
    | badRegion | ok => simp

/-- Settles O52: all a turn of the sequencer can do is complete the command or wait for entropy. -/
theorem enabledCommandCompletes : Obligations.EnabledCommandCompletes := by
  intro s snap rest hp hi hwait
  have hturn : step s = sequencerTurn { s with inputs := rest } := by
    rcases hi with hi | ⟨hi, rfl⟩
    · exact step_cons hi
    · rw [step_nil hi, ← hi]
  rcases sequencerTurn_busy (s := { s with inputs := rest }) hp with ⟨t, e, hc⟩ | ⟨ha, -⟩
  · obtain ⟨code, n, buf, ops, rfl, hcode, -⟩ := hc
    exact ⟨_, hturn.trans e, rfl, rfl, hcode, rfl⟩
  · exact absurd ha hwait

end Sys2Proof.Machine
end

section
/-!
ENCRYPT and DECRYPT on the block (spec 40 R131 to R143).
-/

namespace Sys2Proof.Machine

/-! ## ENCRYPT (R131, R133, R137) -/

/-- The blob of a snapshot, with the tag's HMAC written out (42 R222 to R224). -/
theorem aeadEncrypt_operands (snap : Snapshot) (s : State) (iv : Bytes) :
    aeadEncrypt (compositeKey snap) iv (inputOperand snap s) (aadOperand snap s) =
      iv ++ cbcEnc (encKeyOf (compositeKey snap)) iv (pkcs7Pad (inputOperand snap s)) ++
        trunc32 (hmac512 (macKeyOf (compositeKey snap))
          (aadOperand snap s ++ iv ++
            cbcEnc (encKeyOf (compositeKey snap)) iv (pkcs7Pad (inputOperand snap s)) ++
            be64 (8 * snap.ops.aadlen.toNat))) := by
  rw [aeadEncrypt, tag, transcript, aadLengthBlock, length_aadOperand]

/-- Settles O35. -/
theorem encryptWritesTheBlob : Obligations.EncryptWritesTheBlob := by
  intro s snap iv hp hk hr hiv
  have hobtain := obtainIv_eq_some.mpr hiv
  have hlen := length_of_obtainIv hobtain
  exact ⟨_, _, exec_encrypt_ok hp hk hr hobtain, rfl, rfl,
    (readBytes_finishEncrypt hlen).trans (aeadEncrypt_operands snap s iv),
    fun a => read_finishEncrypt_of_outside hlen⟩

/-- Settles O36. -/
theorem encryptAsksForEntropyAndWaits : Obligations.EncryptAsksForEntropyAndWaits :=
  fun _ _ hp hsrc hk hr hport => exec_encrypt_waits hp hk hr (obtainIv_eq_none.mpr ⟨hsrc, hport⟩)

/-- With no input left a turn of a waiting ENCRYPT only raises the request, again and again (R131). -/
theorem step_awaitsEntropy {s : State} {snap : Snapshot} (hp : s.phase = .busy snap)
    (ha : AwaitsEntropy s snap) (hi : s.inputs = []) (hport : s.entData = none) :
    step s = .next { s with entReq := true } := by
  obtain ⟨hd, hsrc, hk, hr⟩ := ha
  rw [step_nil hi, sequencerTurn_command hp hd,
    encryptAsksForEntropyAndWaits s snap hp hsrc hk hr (.inr hport), ← hport]

/-- Settles O37: the state with the request raised steps to itself. -/
theorem unansweredEncryptStaysBusyForever : Obligations.UnansweredEncryptStaysBusyForever := by
  intro s snap n hp ha hi hport
  rw [run_succ (step_awaitsEntropy hp ha hi hport)]
  induction n with
  | zero => rfl
  | succ n ih =>
    rw [run_succ (step_awaitsEntropy (s := { s with entReq := true }) hp ha hi hport)]
    exact ih

/-- The blob begins with its IV (R133). -/
theorem getD_aeadEncrypt_iv (k pt a : Bytes) {iv : Bytes} {j : Nat} (hj : j < iv.length) :
    (aeadEncrypt k iv pt a).getD j 0 = iv.getD j 0 := by
  rw [aeadEncrypt, List.append_assoc, List.getD_append _ _ _ _ hj]

/-- Settles O38: the answer stands on the port during the ENCRYPT's turn and is its IV. -/
theorem entropyAnswerCompletesTheEncrypt : Obligations.EntropyAnswerCompletesTheEncrypt := by
  intro s snap d rest hp ha hreq hi
  obtain ⟨hd, hsrc, hk, hr⟩ := ha
  have hlen : (lanes 16 d).length = 16 := length_lanes 16 d
  have hstep : step s =
      .next (finishEncrypt (lanes 16 d) snap { s with inputs := rest, entData := some d }) := by
    rw [step_entropy_command hi hp hreq hd]
    exact exec_encrypt_ok hp hk hr (obtainIv_eq_some.mpr (.inr ⟨hsrc, hreq, d, rfl, rfl⟩))
  refine ⟨_, hstep, rfl, fun j hj => ?_, readBytes_finishEncrypt hlen,
    fun a => read_finishEncrypt_of_outside hlen⟩
  rw [read_finishEncrypt hlen, if_pos (by simp only [blobLength]; omega), Nat.add_sub_cancel_left,
    getD_aeadEncrypt_iv _ _ _ (by omega), getD_lanes _ _ _ hj]

/-- What an ENCRYPT leaves of the state and of the buffer, whatever its end (R137). -/
theorem EncryptEnd.frame {s t : State} {snap : Snapshot} (h : EncryptEnd s snap t) :
    t = { s with
      buf := t.buf, result := t.result, outlen := t.outlen, phase := t.phase, done := t.done
      entReq := t.entReq, entData := none } ∧
    ∀ a, ¬(snap.ops.outoff.toNat ≤ a ∧ a < snap.ops.outoff.toNat + blobLength snap.ops.inlen.toNat) →
      Memory.read t.buf a = Memory.read s.buf a := by
  cases h with
  | badKey | badRegion | waits => exact ⟨rfl, fun _ _ => rfl⟩
  | ok iv _ _ hasIv =>
    exact ⟨rfl, fun a => read_finishEncrypt_of_outside (length_of_obtainIv hasIv)⟩

/-- An ENCRYPT that changes the buffer has accepted its regions (R127). -/
theorem EncryptEnd.buf_eq_or_accepted {s t : State} {snap : Snapshot} (h : EncryptEnd s snap t) :
    t.buf = s.buf ∨ RegionsAccepted s.bufSize (blobLength snap.ops.inlen.toNat) snap.ops := by
  cases h with
  | badKey | badRegion | waits => exact .inl rfl
  | ok _ _ regions => exact .inr regions

/-- Settles O41: an accepted output region is disjoint from the AAD and the input. -/
theorem encryptWritesNothingElse : Obligations.EncryptWritesNothingElse := by
  intro s t snap hp e
  have hend := encryptEnd_of_exec hp e
  obtain ⟨hstate, hframe⟩ := hend.frame
  refine ⟨hstate, hframe, ?_⟩
  rcases hend.buf_eq_or_accepted with hbuf | ⟨-, -, -, hin, haad⟩
  · rw [hbuf]
    exact ⟨rfl, rfl⟩
  · exact ⟨readBytes_of_disjoint hframe haad, readBytes_of_disjoint hframe hin⟩

/-! ## DECRYPT (R134, R139, R140) -/

/-- Settles O39: each of the four causes contradicts what DECRYPT accepts, so there is one failure. -/
theorem everyIntegrityFailureLooksTheSame : Obligations.EveryIntegrityFailureLooksTheSame := by
  rintro s snap c a hp hk hr rfl rfl hbad
  have hfails : aeadDecrypt (compositeKey snap) (inputOperand snap s) (aadOperand snap s) = none := by
    refine Option.eq_none_iff_forall_ne_some.mpr fun pt hsome => ?_
    obtain ⟨h64, h16, htag, hpad⟩ := aeadDecrypt_eq_some_iff.mp hsome
    rcases hbad with hshort | hbody | hwrong | hnone
    · exact absurd h64 (Nat.not_le.mpr hshort)
    · exact hbody h16
    · exact hwrong htag
    · cases hnone.symm.trans hpad
  refine ⟨_, exec_decrypt_fails hp hk hr hfails, ?_, fun i hlt => ?_, fun x hx => ?_⟩
  · rw [raiseFailure_invalidCiphertext]
    rfl
  · rw [read_invalidCiphertext, if_pos (by omega)]
  · rw [read_invalidCiphertext, if_neg hx]

/-- Settles O40. -/
theorem decryptWritesThePlaintext : Obligations.DecryptWritesThePlaintext := by
  rintro s snap c a pt hp hk hr rfl rfl h64 h16 htag hpad
  have hopens : aeadDecrypt (compositeKey snap) (inputOperand snap s) (aadOperand snap s) = some pt :=
    aeadDecrypt_eq_some_iff.mpr ⟨h64, h16, htag, hpad⟩
  have hlt := length_lt_reserved hopens
  rw [Memory.length_readBytes]
  exact ⟨hlt, _, exec_decrypt_ok hp hk hr hopens, rfl, readBytes_finishDecrypt (by omega),
    fun x => read_finishDecrypt_of_outside (by omega)⟩

/-- Settles O42, end by end. -/
theorem decryptLeavesNoPartialPlaintext : Obligations.DecryptLeavesNoPartialPlaintext := by
  intro s t snap hp e
  cases decryptEnd_of_exec hp e with
  | badKey | badRegion =>
    exact ⟨rfl, rfl, rfl, rfl, rfl, fun h => by simp at h, fun h => by simp at h, fun _ => rfl,
      fun _ _ => rfl⟩
  | badBlob =>
    refine ⟨rfl, rfl, rfl, rfl, rfl, fun _ i hlt => ?_, fun h => ?_, fun h => ?_, fun x hx => ?_⟩
    · rw [read_invalidCiphertext, if_pos (by omega)]
    · simp [raiseFailure_invalidCiphertext] at h
    · simp [raiseFailure_invalidCiphertext] at h
    · rw [read_invalidCiphertext, if_neg hx]
  | ok pt _ _ opens =>
    have hlt := length_lt_reserved opens
    exact ⟨rfl, rfl, rfl, rfl, rfl, fun h => by simp at h,
      fun _ => ⟨pt, opens, readBytes_finishDecrypt (by omega)⟩, fun h => by simp at h,
      fun x => read_finishDecrypt_of_outside (by omega)⟩

/-! ## Lengths and two commands (R141 to R143) -/

/-- In a buffer of legal size the length of an accepted blob does not wrap in OUTLEN (R124). -/
theorem toNat_outlen_finishEncrypt {s : State} {snap : Snapshot} (iv : Bytes)
    (hs : bufSizeWf s.bufSize = true)
    (hr : RegionsAccepted s.bufSize (blobLength snap.ops.inlen.toNat) snap.ops) :
    (finishEncrypt iv snap s).outlen.toNat = blobLength snap.ops.inlen.toNat := by
  obtain ⟨-, hmax, -⟩ := le_of_bufSizeWf hs
  obtain ⟨-, -, hfit, -⟩ := hr
  rw [finishEncrypt_outlen, encLength_eq, BitVec.toNat_ofNat]
  exact Nat.mod_eq_of_lt (by omega)

/-- The length of a plaintext does not wrap in OUTLEN, since it is below a register's value. -/
theorem toNat_outlen_finishDecrypt {s : State} {snap : Snapshot} {pt : Bytes}
    (hd : aeadDecrypt (compositeKey snap) (inputOperand snap s) (aadOperand snap s) = some pt) :
    (finishDecrypt pt snap s).outlen.toNat = pt.length := by
  have hlt := length_lt_reserved hd
  have hword := snap.ops.inlen.isLt
  rw [reservedLength] at hlt
  rw [finishDecrypt_outlen, BitVec.toNat_ofNat]
  exact Nat.mod_eq_of_lt (by omega)

/-- Settles O43: neither length wraps in OUTLEN, and the third is the round trip on byte strings. -/
theorem outputLengthsAreAsStated : Obligations.OutputLengthsAreAsStated := by
  refine ⟨fun s t snap hp hs e hidle hok => ?_, fun s t snap hp e hok => ?_, fun k iv pt a out hi h => ?_⟩
  · obtain ⟨iv, hr, -, rfl⟩ := encrypt_ok_inv hp e hidle hok
    rw [toNat_outlen_finishEncrypt iv hs hr, blobLength]
    omega
  · obtain ⟨pt, hd, rfl⟩ := decrypt_ok_inv hp e hok
    obtain ⟨h64, h16, hlow, hhigh⟩ := length_of_aeadDecrypt hd
    rw [length_inputOperand] at h64 h16 hlow hhigh
    rw [reservedLength] at hhigh
    rw [toNat_outlen_finishDecrypt hd]
    omega
  · rw [aeadDecrypt_aeadEncrypt k pt a hi, Option.some.injEq] at h
    rw [h]

/-- Settles O45: the DECRYPT's operands are the blob and the AAD of the ENCRYPT, under its key. -/
theorem commandRoundTrip : Obligations.CommandRoundTrip := by
  intro s₁ t₁ s₂ snap₁ snap₂ hs hp₁ e₁ hidle hok hp₂ hk hkey hoff hlen hblob haad hr₂
  obtain ⟨iv, hr₁, hiv, rfl⟩ := encrypt_ok_inv hp₁ e₁ hidle hok
  have hi := length_of_obtainIv hiv
  have hin : inputOperand snap₂ s₂ =
      aeadEncrypt (compositeKey snap₁) iv (inputOperand snap₁ s₁) (aadOperand snap₁ s₁) :=
    calc inputOperand snap₂ s₂
      _ = Memory.readBytes (finishEncrypt iv snap₁ s₁).buf snap₁.ops.outoff.toNat
            (blobLength snap₁.ops.inlen.toNat) := by
        rw [← toNat_outlen_finishEncrypt iv hs hr₁]
        exact hblob
      _ = _ := readBytes_finishEncrypt hi
  have hopens : aeadDecrypt (compositeKey snap₂) (inputOperand snap₂ s₂) (aadOperand snap₂ s₂) =
      some (inputOperand snap₁ s₁) := by
    rw [hin, show compositeKey snap₂ = compositeKey snap₁ from congrArg fileBytes hkey,
      show aadOperand snap₂ s₂ = aadOperand snap₁ s₁ from haad, aeadDecrypt_aeadEncrypt _ _ _ hi]
  have hlt := length_lt_reserved hopens
  refine ⟨_, exec_decrypt_ok hp₂ hk hr₂ hopens, rfl, rfl, ?_, ?_⟩
  · apply BitVec.eq_of_toNat_eq
    rw [toNat_outlen_finishDecrypt hopens, length_inputOperand]
  · have hread := readBytes_finishDecrypt_plaintext (s := s₂) (Nat.le_of_succ_le hlt)
    rwa [length_inputOperand] at hread

/-- Settles O46: both blobs are `aeadEncrypt` of the same operands. -/
theorem blobIsDeterminedByItsInputs : Obligations.BlobIsDeterminedByItsInputs := by
  intro s₁ s₂ t₁ t₂ snap₁ snap₂ iv hp₁ hp₂ hiv₁ hiv₂ hkey hin haad e₁ e₂ hok₁ hok₂
  obtain rfl := eq_finishEncrypt hp₁ hiv₁ e₁ hok₁
  obtain rfl := eq_finishEncrypt hp₂ hiv₂ e₂ hok₂
  have hi := length_of_obtainIv hiv₁
  have hlen : snap₁.ops.inlen.toNat = snap₂.ops.inlen.toNat := by
    simpa using congrArg List.length hin
  refine ⟨?_, ?_⟩
  · rw [finishEncrypt_outlen, finishEncrypt_outlen, encLength_eq, encLength_eq, hlen]
  · rw [readBytes_finishEncrypt hi, readBytes_finishEncrypt hi,
      show compositeKey snap₁ = compositeKey snap₂ from congrArg fileBytes hkey,
      show inputOperand snap₁ s₁ = inputOperand snap₂ s₂ from hin,
      show aadOperand snap₁ s₁ = aadOperand snap₂ s₂ from haad]

end Sys2Proof.Machine
end

section
/-!
AES-256, CBC and PKCS#7 on byte strings (spec 41 R186 to R194): encryption is a permutation of the blocks, CBC
decryption undoes CBC encryption, and unpadding accepts the padded byte strings and nothing else.
-/

namespace Sys2Proof.Machine

/-! ## AES-256 is a permutation of the blocks (41 R186) -/

theorem cipher_invCipher (w : List Column) (s : AesState) : cipher w (invCipher w s) = s := by
  simp [cipher, invCipher, cipherRounds_invCipherRounds]

theorem encryptBlock_decryptBlock (w : List Column) {b : Bytes} (h : b.length = 16) :
    encryptBlock w (decryptBlock w b) = b := by
  rw [encryptBlock, decryptBlock, loadState_storeState, cipher_invCipher, storeState_loadState h]

@[simp] theorem length_aesEnc (k b : Bytes) : (aesEnc k b).length = 16 := length_encryptBlock _ b

@[simp] theorem length_aesDec (k b : Bytes) : (aesDec k b).length = 16 := length_decryptBlock _ b

theorem aesDec_aesEnc (k : Bytes) {b : Bytes} (h : b.length = 16) : aesDec k (aesEnc k b) = b :=
  decryptBlock_encryptBlock _ h

theorem aesEnc_aesDec (k : Bytes) {b : Bytes} (h : b.length = 16) : aesEnc k (aesDec k b) = b :=
  encryptBlock_decryptBlock _ h

/-- Settles O53: decryption is a two-sided inverse, so equal ciphertexts decrypt to equal blocks and every block is
the encryption of its own decryption. The length of the key plays no part. -/
theorem aesEncryptionIsAPermutation : Obligations.AesEncryptionIsAPermutation := by
  intro k _
  refine ⟨fun b hb => ?_, fun b b' hb hb' heq => ?_, fun c hc => ?_⟩
  · exact ⟨length_aesEnc k b, length_aesDec k b, aesDec_aesEnc k hb, aesEnc_aesDec k hb⟩
  · calc b = aesDec k (aesEnc k b) := (aesDec_aesEnc k hb).symm
      _ = aesDec k (aesEnc k b') := by rw [heq]
      _ = b' := aesDec_aesEnc k hb'
  · exact ⟨aesDec k c, length_aesDec k c, aesEnc_aesDec k hc⟩

/-! ## CBC (41 R190, R191) -/

/-- Settles O54. -/
theorem cbcDecryptionUndoesEncryption : Obligations.CbcDecryptionUndoesEncryption := by
  intro k iv x m hi hx
  refine ⟨?_, cbcDec_cbcEnc k hi (by omega)⟩
  rw [length_cbcEnc]
  omega

/-! ## Padding (41 R192 to R194) -/

/-- Settles O55, with `p` the model's `padLength`. -/
theorem paddingFillsTheBlock : Obligations.PaddingFillsTheBlock := fun pt =>
  ⟨padLength pt.length, padLength_pos _, padLength_le _, rfl, rfl, length_pkcs7Pad pt⟩

/-- Settles O56. -/
theorem unpaddingUndoesPadding : Obligations.UnpaddingUndoesPadding := fun pt =>
  ⟨pkcs7Unpad_pkcs7Pad pt, fun k _ hi => pkcs7Unpad_cbcDec_cbcEnc k pt hi⟩

/-- Only one number of padding bytes between 1 and 16 fills up the last block (R192). -/
theorem eq_padLength {n p : Nat} (h1 : 1 ≤ p) (h16 : p ≤ 16) (h : (n + p) % 16 = 0) :
    p = padLength n := by
  simp only [padLength, Config.aesBlockBytes]
  omega

/-- Settles O57: what unpadding accepts ends in `p` bytes `p`, and on whole blocks that `p` is the padding's. -/
theorem unpaddingAcceptsOnlyPaddings : Obligations.UnpaddingAcceptsOnlyPaddings := by
  intro x pt hwhole hx
  constructor
  · intro hsome
    obtain ⟨p, h1, h16, rfl⟩ := pkcs7Unpad_some hx hsome
    rw [List.length_append, length_rep] at hwhole
    rw [pkcs7Pad, ← eq_padLength h1 h16 hwhole]
  · rintro rfl
    exact pkcs7Unpad_pkcs7Pad pt

end Sys2Proof.Machine
end

section
/-!
PROOF. Integrity, 42: the length block of an AAD says how long the AAD is, so a transcript can be cut into the parts it
is made of (R225), and the shape of SHA-512 padding byte by byte (R213, R216).
-/

namespace Sys2Proof.Machine

/-! ## Big-endian encodings (00 R13) -/

/-- The encoding with one more byte: the last byte holds the low eight bits, the others encode the rest. -/
theorem beBytes_succ (n v : Nat) : beBytes (n + 1) v = beBytes n (v / 256) ++ [BitVec.ofNat 8 v] := by
  have hfront : ∀ i ∈ List.range n, v >>> (8 * (n + 1 - 1 - i)) = (v / 256) >>> (8 * (n - 1 - i)) := by
    intro i hi
    have hexp : 8 * (n + 1 - 1 - i) = 8 + 8 * (n - 1 - i) := by
      have := List.mem_range.mp hi
      omega
    rw [hexp, Nat.shiftRight_add, Nat.shiftRight_eq_div_pow v 8]
  rw [beBytes, List.range_succ, List.map_append, beBytes]
  congr 1
  · exact List.map_congr_left fun i hi => by rw [hfront i hi]
  · simp

theorem beValue_concat (b : Bytes) (x : Byte) : beValue (b ++ [x]) = beValue b * 256 + x.toNat := by
  simp [beValue]

theorem beValue_beBytes (n v : Nat) : beValue (beBytes n v) = v % 256 ^ n := by
  induction n generalizing v with
  | zero => simp [beBytes, beValue, Nat.mod_one]
  | succ n ih =>
    calc beValue (beBytes (n + 1) v)
        = v / 256 % 256 ^ n * 256 + v % 256 := by rw [beBytes_succ, beValue_concat, ih, BitVec.toNat_ofNat]
      _ = v % (256 * 256 ^ n) := by rw [Nat.mod_mul, Nat.mul_comm, Nat.add_comm]
      _ = v % 256 ^ (n + 1) := by rw [Nat.pow_succ']

/-! ## The transcript (R222, R223, R225) -/

theorem length_eq_of_aadLengthBlock_eq {a a' : Bytes} (ha : a.length < 2 ^ 61) (ha' : a'.length < 2 ^ 61)
    (h : aadLengthBlock a = aadLengthBlock a') : a.length = a'.length := by
  have hval : 8 * a.length % 256 ^ 8 = 8 * a'.length % 256 ^ 8 := by
    rw [← beValue_beBytes, ← beValue_beBytes]
    exact congrArg beValue h
  omega

/-- Settles O59, taking the transcript apart from its end: the length block has eight bytes, it fixes the length of the
AAD, and the IV has sixteen. -/
theorem transcriptIsInjective : Obligations.TranscriptIsInjective := by
  intro a iv e a' iv' e' hiv hiv' ha ha' h
  obtain ⟨hfront, hblock⟩ := List.append_inj' h (by simp [aadLengthBlock])
  have hlen : a.length = a'.length := length_eq_of_aadLengthBlock_eq ha ha' hblock
  obtain ⟨hheader, hbody⟩ := List.append_inj hfront (by simp [hlen, hiv, hiv'])
  obtain ⟨haad, hvector⟩ := List.append_inj hheader hlen
  exact ⟨haad, hvector, hbody⟩

/-! ## Padding (R213) -/

theorem length_pad512 (m : Bytes) :
    (pad512 m).length = m.length + 1 + (239 - m.length % 128) % 128 + 16 := by
  simp only [pad512, List.length_append, List.length_singleton, length_zeros, length_be128]

/-- The message stands in front, with the end mark right behind it. -/
theorem pad512_eq_append (m : Bytes) :
    pad512 m = m ++ 0x80 :: (zeros ((239 - m.length % 128) % 128) ++ be128 (8 * m.length)) := by
  simp [pad512]

theorem getD_pad512_zero {m : Bytes} {i : Nat} (hi : m.length < i) (hend : i < (pad512 m).length - 16) :
    (pad512 m).getD i 0 = 0 := by
  rw [length_pad512] at hend
  obtain ⟨j, rfl⟩ : ∃ j, i = m.length + (j + 1) := ⟨i - m.length - 1, by omega⟩
  have hj : j < (zeros ((239 - m.length % 128) % 128)).length := by
    rw [length_zeros]
    omega
  rw [pad512_eq_append, List.getD_append_right _ _ _ _ (by omega), Nat.add_sub_cancel_left, List.getD_cons_succ,
    List.getD_append _ _ _ _ hj]
  simp [zeros]

theorem drop_pad512 (m : Bytes) :
    (pad512 m).drop ((pad512 m).length - 16) = be128 (8 * m.length) := by
  have hcut : (pad512 m).length - 16 =
      (m ++ [0x80] ++ zeros ((239 - m.length % 128) % 128)).length := by
    simp only [pad512, List.length_append, length_be128, Nat.add_sub_cancel]
  rw [hcut, pad512, List.drop_left]

/-- Settles O60: the parts of the padding one by one, then the fixed lengths of the digest and of the tag. -/
theorem hashPaddingMakesWholeBlocks : Obligations.HashPaddingMakesWholeBlocks := by
  intro m
  have hlen := length_pad512 m
  refine ⟨?message, ?mark, ?whole, ?fits, ?least, fun i hi hend => getD_pad512_zero hi hend, drop_pad512 m,
    length_sha512 m, length_tag⟩
  case message => rw [pad512_eq_append, List.take_left]
  case mark =>
    rw [pad512_eq_append, List.getD_append_right _ _ _ _ le_rfl, Nat.sub_self, List.getD_cons_zero]
  case whole => omega
  case fits => omega
  case least => omega

end Sys2Proof.Machine
end

section
/-!
The laws of the tag comparator (spec 43 R244).
-/

namespace Sys2Proof.Machine

/-- The comparator is true exactly when all 32 byte pairs are equal, whatever the lengths. -/
theorem ctEq_iff_getD {t t2 : Bytes} :
    ctEq t t2 = true ↔ ∀ i, i < 32 → t.getD i 0 = t2.getD i 0 := by
  rw [ctEq, beq_iff_eq]
  exact tagDifference_eq_zero t t2 32

theorem ctEq_self (t : Bytes) : ctEq t t = true := ctEq_iff_getD.mpr fun _ _ => rfl

theorem ctEq_comm (t t2 : Bytes) : ctEq t t2 = ctEq t2 t := by
  rw [Bool.eq_iff_iff, ctEq_iff_getD, ctEq_iff_getD]
  exact forall₂_congr fun _ _ => eq_comm

/-- One byte pair that differs, at whatever position, makes the comparator false. -/
theorem ctEq_eq_false_of_getD_ne {t t2 : Bytes} {i : Nat} (hi : i < 32) (hne : t.getD i 0 ≠ t2.getD i 0) :
    ctEq t t2 = false :=
  Bool.eq_false_of_not_eq_true fun htrue => hne (ctEq_iff_getD.mp htrue i hi)

theorem getD_set_self {t : Bytes} {i : Nat} (hi : i < t.length) (x : Byte) : (t.set i x).getD i 0 = x := by
  simp [hi]

/-- Settles O58: the comparator speaks of the byte pairs, and a nonzero mask xored onto a byte changes its pair. -/
theorem comparatorIsEquality : Obligations.ComparatorIsEquality := by
  intro t t2 ht ht2
  refine ⟨ctEq_self t, ctEq_comm t t2, ctEq_iff_getD, ctEq_iff_eq ht ht2, fun i b hi hb => ?changed⟩
  case changed =>
    apply ctEq_eq_false_of_getD_ne hi
    rw [getD_set_self (by omega)]
    intro hsame
    exact hb (xor_left_eq_self_iff.mp hsame.symm)

end Sys2Proof.Machine
end

section
/-!
Exceptions (spec 60): no step of any agent stops the block, and regions that are not accepted are reported before
anything is read or requested.
-/

namespace Sys2Proof.Machine

/-! ## Every step answers (20 R70, 60 R250) -/

/-- A turn of the sequencer does nothing, completes the command or waits, and answers each time. -/
theorem sequencerTurn_answers_next (s : State) : ∃ t, sequencerTurn s = .next t := by
  cases hp : s.phase with
  | idle => exact ⟨s, sequencerTurn_idle hp⟩
  | busy snap =>
    rcases sequencerTurn_busy hp with ⟨t, hcomplete, -⟩ | ⟨-, -, hwait⟩
    · exact ⟨t, hcomplete⟩
    · exact ⟨_, hwait⟩

/-- An answer of the entropy source is ignored or is a turn of the sequencer. -/
theorem entropyAnswer_answers_next (d : EntropyWord) (s : State) : ∃ t, entropyAnswer d s = .next t := by
  rcases entropyAnswer_cases d s with ⟨-, hignored⟩ | ⟨_, -, -, hturn⟩
  · exact ⟨s, hignored⟩
  · rw [hturn]
    exact sequencerTurn_answers_next _

/-- Host accesses and resets are total functions; the other two agents answer by the lemmas above. -/
theorem applyInput_answers_next (e : Input) (s : State) : ∃ t, applyInput e s = .next t := by
  cases e with
  | sequencer => exact sequencerTurn_answers_next s
  | entropy d => exact entropyAnswer_answers_next d s
  | hostRead | hostWrite | assertReset | releaseReset | powerOn => exact ⟨_, rfl⟩

/-- Settles O5: the step is the next input's, or the sequencer's when there is none. -/
theorem everyStepAnswersNext : Obligations.EveryStepAnswersNext := by
  intro s
  cases hi : s.inputs with
  | nil =>
    rw [step_nil hi]
    exact sequencerTurn_answers_next s
  | cons e rest =>
    rw [step_cons hi]
    exact applyInput_answers_next e _

/-! ## Refused regions (40 R127, R128; 60 R255) -/

section
variable {s : State} {snap : Snapshot}

/-- An ENCRYPT with a refused region ends there, with no buffer write and no request. -/
theorem exec_encrypt_badRegion (h : s.phase = .busy snap) (hk : snap.ops.keylen.toNat = 64)
    (hr : ¬RegionsAccepted s.bufSize (blobLength snap.ops.inlen.toNat) snap.ops) :
    exec .encrypt s = .next (finish .badRegion 0 s) := by
  obtain ⟨t, e, hend⟩ := exec_encrypt_ends h
  cases hend with
  | badKey key => exact absurd hk key
  | badRegion => exact e
  | waits _ regions | ok _ _ regions => exact absurd regions hr

/-- A DECRYPT with a refused region ends there, with no buffer write and no look at the blob. -/
theorem exec_decrypt_badRegion (h : s.phase = .busy snap) (hk : snap.ops.keylen.toNat = 64)
    (hr : ¬RegionsAccepted s.bufSize (reservedLength snap.ops.inlen.toNat) snap.ops) :
    exec .decrypt s = .next (finish .badRegion 0 s) := by
  obtain ⟨t, e, hend⟩ := exec_decrypt_ends h
  cases hend with
  | badKey key => exact absurd hk key
  | badRegion => exact e
  | badBlob _ regions | ok _ _ regions => exact absurd regions hr

end

/-- Settles O34: the state written out is the finish with BadRegion. -/
theorem badRegionFailsBeforeAnyRead : Obligations.BadRegionFailsBeforeAnyRead :=
  fun _ _ hp hk => ⟨exec_encrypt_badRegion hp hk, exec_decrypt_badRegion hp hk⟩

end Sys2Proof.Machine
end

section
/-!
Reset during a command (spec 70 R280 to R282), the held reset (R280) and entropy answers outside a request (R284).
-/

namespace Sys2Proof.Machine

/-! ## What the command in flight could write (70 R282) -/

theorem abortedRegion_idle {s : State} (h : s.phase = .idle) : abortedRegion s = (0, 0) := by
  simp [abortedRegion, h]

section
variable {s : State} {snap : Snapshot} (hp : s.phase = .busy snap)
include hp

theorem abortedRegion_nop (hd : decode snap.cmd = .command .nop) : abortedRegion s = (0, 0) := by
  simp [abortedRegion, hp, hd]

theorem abortedRegion_illegal {why : IllegalReason} (hd : decode snap.cmd = .illegal why) :
    abortedRegion s = (0, 0) := by
  simp [abortedRegion, hp, hd]

theorem abortedRegion_zeroize (hd : decode snap.cmd = .command .zeroize) :
    abortedRegion s = (0, s.bufSize) := by
  simp [abortedRegion, hp, hd]

theorem abortedRegion_encrypt (hd : decode snap.cmd = .command .encrypt) (hk : snap.ops.keylen.toNat = 64)
    (hr : RegionsAccepted s.bufSize (blobLength snap.ops.inlen.toNat) snap.ops) :
    abortedRegion s = (snap.ops.outoff.toNat, blobLength snap.ops.inlen.toNat) := by
  simp [abortedRegion, hp, hd, keyLengthOk_iff.mpr hk, encRegionsOk_iff.mpr hr, encLength_eq]

theorem abortedRegion_decrypt (hd : decode snap.cmd = .command .decrypt) (hk : snap.ops.keylen.toNat = 64)
    (hr : RegionsAccepted s.bufSize (reservedLength snap.ops.inlen.toNat) snap.ops) :
    abortedRegion s = (snap.ops.outoff.toNat, reservedLength snap.ops.inlen.toNat) := by
  simp [abortedRegion, hp, hd, keyLengthOk_iff.mpr hk, decRegionsOk_iff.mpr hr, decReserved_eq]

/-- An ENCRYPT that would fail its key or its region check writes nothing. -/
theorem abortedRegion_encrypt_failing (hd : decode snap.cmd = .command .encrypt)
    (hfail : ¬(snap.ops.keylen.toNat = 64 ∧
      RegionsAccepted s.bufSize (blobLength snap.ops.inlen.toNat) snap.ops)) :
    abortedRegion s = (0, 0) := by
  rw [← keyLengthOk_iff, ← encRegionsOk_iff, ← Bool.and_eq_true] at hfail
  simp only [abortedRegion, hp, hd, if_neg hfail]

/-- A DECRYPT that would fail its key or its region check writes nothing. -/
theorem abortedRegion_decrypt_failing (hd : decode snap.cmd = .command .decrypt)
    (hfail : ¬(snap.ops.keylen.toNat = 64 ∧
      RegionsAccepted s.bufSize (reservedLength snap.ops.inlen.toNat) snap.ops)) :
    abortedRegion s = (0, 0) := by
  rw [← keyLengthOk_iff, ← decRegionsOk_iff, ← Bool.and_eq_true] at hfail
  simp only [abortedRegion, hp, hd, if_neg hfail]

end

/-! ## The warm reset (70 R280, R282) -/

/-- Draws are taken for the bytes the command could write, and every other byte is kept. -/
theorem warmReset_of_abortedRegion {s : State} {off n : Nat} (h : abortedRegion s = (off, n)) :
    (warmReset s).draws = s.draws + n ∧ ∀ a,
      if off ≤ a ∧ a < off + n
      then Memory.read (warmReset s).buf a = Config.freeByte (s.draws + (a - off))
      else Memory.read (warmReset s).buf a = Memory.read s.buf a := by
  refine ⟨by rw [warmReset_draws, h], fun a => ?_⟩
  rw [read_warmReset, h]
  split <;> rfl

theorem read_warmReset_of_nothing {s : State} (h : abortedRegion s = (0, 0)) (a : Nat) :
    Memory.read (warmReset s).buf a = Memory.read s.buf a := by
  rw [read_warmReset, h]
  exact if_neg (by omega)

/-- Settles O9: the region is the one of the case, and the reset draws for it alone. -/
theorem warmResetKeepsWhatNoCommandCouldWrite : Obligations.WarmResetKeepsWhatNoCommandCouldWrite := by
  intro s rest hi
  refine ⟨warmReset { s with inputs := rest }, step_cons hi,
    fun hidle => read_warmReset_of_nothing (abortedRegion_idle hidle), fun snap hp => ?_⟩
  refine ⟨fun hd hk hr => warmReset_of_abortedRegion (abortedRegion_encrypt hp hd hk hr),
    fun hd hk hr => warmReset_of_abortedRegion (abortedRegion_decrypt hp hd hk hr), ?zeroize, ?nothing⟩
  case zeroize =>
    intro hd
    simpa only [Nat.zero_le, true_and, Nat.zero_add, Nat.sub_zero] using
      warmReset_of_abortedRegion (abortedRegion_zeroize (s := { s with inputs := rest }) hp hd)
  case nothing =>
    rintro (hnop | ⟨why, hillegal⟩ | ⟨hencrypt, hfail⟩ | ⟨hdecrypt, hfail⟩)
    · exact read_warmReset_of_nothing (abortedRegion_nop hp hnop)
    · exact read_warmReset_of_nothing (abortedRegion_illegal hp hillegal)
    · exact read_warmReset_of_nothing (abortedRegion_encrypt_failing hp hencrypt hfail)
    · exact read_warmReset_of_nothing (abortedRegion_decrypt_failing hp hdecrypt hfail)

/-! ## Entropy answers (70 R284) -/

theorem entropyAnswer_ignored {s : State} (d : EntropyWord) (h : s.phase = .idle ∨ s.entReq = false) :
    entropyAnswer d s = .next s := by
  rcases entropyAnswer_cases d s with ⟨-, hignored⟩ | ⟨snap, hbusy, hreq, -⟩
  · exact hignored
  · simp [hbusy, hreq] at h

/-- A turn of the command in flight leaves the port clear: a completion takes or drops the answer, and a request keeps
none from before it. -/
theorem entData_of_sequencerTurn_busy {s t : State} {snap : Snapshot} (hp : s.phase = .busy snap)
    (e : sequencerTurn s = .next t) : t.entData = none := by
  rcases sequencerTurn_busy hp with ⟨u, hcomplete, hc⟩ | ⟨-, -, hwait⟩
  · obtain rfl : u = t := by simpa [hcomplete] using e
    obtain ⟨code, n, buf, ops, rfl, -⟩ := hc
    exact finish_entData _ _ _
  · obtain rfl : requestEntropy s = t := by simpa [hwait] using e
    exact requestEntropy_entData s

/-- No answer is stored for a later step. -/
theorem entData_of_entropyAnswer {s t : State} {d : EntropyWord} (h : s.entData = none)
    (e : entropyAnswer d s = .next t) : t.entData = none := by
  rcases entropyAnswer_cases d s with ⟨-, hignored⟩ | ⟨snap, hp, -, hturn⟩
  · obtain rfl : s = t := by simpa [hignored] using e
    exact h
  · exact entData_of_sequencerTurn_busy (s := { s with entData := some d }) hp (hturn ▸ e)

/-- An answer that changes anything finds an outstanding request. -/
theorem entReq_of_entropyAnswer_ne {s t : State} {d : EntropyWord} (e : entropyAnswer d s = .next t)
    (hne : t ≠ s) : s.entReq = true := by
  by_contra hreq
  rw [entropyAnswer_ignored d (.inr (by simpa using hreq)), Host.Outcome.next.injEq] at e
  exact hne e.symm

/-- Settles O13: the step is `entropyAnswer`; in a consistent state a request is a waiting ENCRYPT's. -/
theorem entropyAnswerNeedsARequest : Obligations.EntropyAnswerNeedsARequest := by
  intro s d rest hi
  have hstep : step s = entropyAnswer d { s with inputs := rest } := step_cons hi
  rw [hstep]
  refine ⟨fun hreq => entropyAnswer_ignored d (.inr hreq), fun hidle => entropyAnswer_ignored d (.inl hidle),
    fun t hs e hne => ?_, fun t hport e => entData_of_entropyAnswer (s := { s with inputs := rest }) hport e⟩
  have hreq : s.entReq = true := entReq_of_entropyAnswer_ne (s := { s with inputs := rest }) e hne
  exact ⟨hreq, hs.request hreq⟩

/-! ## Abort (70 R281) -/

/-- Settles O11: after the reset the block is IDLE, so there is nothing to complete and nothing that waits. -/
theorem resetAbortsTheCommand : Obligations.ResetAbortsTheCommand := by
  intro s snap e rest _ hi he
  obtain ⟨t, hstep, hreset, -⟩ := step_reset hi he
  obtain ⟨-, -, -, -, hirq⟩ := words_of_registersReset hreset
  obtain ⟨-, -, hidle, hdone, -, hresult, houtlen, -, hreq⟩ := hreset
  exact ⟨t, hstep, hidle, hresult, houtlen, hdone, hirq, hreq, sequencerTurn_idle hidle,
    fun d => entropyAnswer_ignored d (.inl hidle)⟩

/-! ## The held reset (70 R280) -/

theorem hostRead_held {s : State} (off : Offset) (size : AccessSize) (h : s.rstHeld = true) :
    hostRead off size s = { s with rdata := some 0 } := by
  rcases hostRead_cases off size s with ⟨-, hheld⟩ | ⟨hr, -⟩ | ⟨hr, -⟩
  · exact hheld
  all_goals exact not_held hr h

theorem hostWrite_held {s : State} (off : Offset) (size : AccessSize) (v : Word) (h : s.rstHeld = true) :
    hostWrite off size v s = { s with rdata := none } := by
  rcases hostWrite_cases off size v s with ⟨-, hheld⟩ | ⟨hr, -⟩ | ⟨hr, -⟩
  · exact hheld
  all_goals exact not_held hr h

/-- Settles O12: the held port answers before it looks at the offset, and the release drops the one bit. -/
theorem heldResetAnswersZero : Obligations.HeldResetAnswersZero := by
  intro s rest hr
  refine ⟨fun off size hi => ?read, fun off size v hi => ?write, fun hi => step_cons hi⟩
  case read =>
    rw [step_cons hi]
    exact congrArg _ (hostRead_held (s := { s with inputs := rest }) off size hr)
  case write =>
    rw [step_cons hi]
    exact congrArg _ (hostWrite_held (s := { s with inputs := rest }) off size v hr)

end Sys2Proof.Machine
end
